-- ==== Sys2Proof/Word.lean ====
section
/-! DEFINITION. The word type of the machine and its plainest arithmetic.
Registers, the ALU, addresses, data cells and instruction words are all 32 bits wide (00_scope.md section 3,
XLEN and ILEN; R20, R24, R54, R73). Arithmetic on them is modulo 2^32 (00_scope.md section 5), which is what
`+`, `-` and `*` on bit vectors give. -/

namespace Sys2Proof

/-- A 32-bit word (XLEN = ILEN = 32). -/
abbrev Word := BitVec 32

/-- A general register index, 0 to 31 (R20: there are 32 general registers, named by index only, R21). -/
abbrev Reg := Fin 32

end Sys2Proof
end

