-- ==== Sys2Proof/Syntax.lean ====
section
/-! DEFINITION. The abstract instruction of R70: the tuple of an opcode and its operand list, one constructor per
row of spec/opcode_table.json. Operands stand in the order in which R70 lists them, register indices as natural
numbers and immediates as integers, as the abstract level has them; R72 (WellFormed.lean) says which of them are
instructions of the machine. -/

namespace Sys2Proof

/-- The nine instructions (R2, R70). -/
inductive Instr where
  /-- `add $rd, $rs, $rt` (R120) -/
  | add (rd rs rt : Nat)
  /-- `sub $rd, $rs, $rt` (R121) -/
  | sub (rd rs rt : Nat)
  /-- `addi $rt, $rs, imm` (R122) -/
  | addi (rt rs : Nat) (imm : Int)
  /-- `subi $rt, $rs, imm` (R123) -/
  | subi (rt rs : Nat) (imm : Int)
  /-- `lw $rt, imm($rs)` (R130) -/
  | lw (rt : Nat) (imm : Int) (rs : Nat)
  /-- `sw $rt, imm($rs)` (R131) -/
  | sw (rt : Nat) (imm : Int) (rs : Nat)
  /-- `beq $rs, $rt, imm`, imm a word offset relative to the next instruction (R140) -/
  | beq (rs rt : Nat) (imm : Int)
  /-- `j imm`, imm an absolute word index (R141) -/
  | j (imm : Int)
  /-- `halt` (R150) -/
  | halt
deriving DecidableEq, Repr

end Sys2Proof
end

