-- ==== Sys2Proof/WellFormed.lean ====
section
/-! DEFINITION. Well-formedness of an abstract instruction (R72): every register index is an integer from 0 to 31 and
the immediate is in the range R81 gives it. The opcode and the arity are right by the type. -/

namespace Sys2Proof

/-- A register index is an integer from 0 to 31 (R72). -/
def regOk (n : Nat) : Bool := decide (n < 32)

/-- The range of the immediate of `addi`, `subi`, `lw`, `sw` and `beq`: −32768 to 32767 (R81). -/
def imm16Ok (i : Int) : Bool := decide (-32768 ≤ i) && decide (i ≤ 32767)

/-- The range of the word index of `j`: 0 to 2^26 − 1 (R81). -/
def idx26Ok (i : Int) : Bool := decide (0 ≤ i) && decide (i < 67108864)

/-- R72. -/
def Instr.wellFormed : Instr → Bool
  | .add rd rs rt => regOk rd && regOk rs && regOk rt
  | .sub rd rs rt => regOk rd && regOk rs && regOk rt
  | .addi rt rs imm => regOk rt && regOk rs && imm16Ok imm
  | .subi rt rs imm => regOk rt && regOk rs && imm16Ok imm
  | .lw rt imm rs => regOk rt && imm16Ok imm && regOk rs
  | .sw rt imm rs => regOk rt && imm16Ok imm && regOk rs
  | .beq rs rt imm => regOk rs && regOk rt && imm16Ok imm
  | .j imm => idx26Ok imm
  | .halt => true

end Sys2Proof
end

