-- ==== Sys2Proof/Decode.lean ====
section
/-! DEFINITION. The instruction word: its fields (R74), the total decoder (R76) that refuses a malformed word by name
(R82), the opcode map (R75), and the encoder (R83), its inverse on well-formed instructions. -/

namespace Sys2Proof

/-! ### Fields of the word (R74; bit 31 the most significant) -/

/-- `w[31:26]`, the major opcode. -/
def op6Of (w : Word) : BitVec 6 := w.extractLsb' 26 6
/-- `w[25:21]` -/
def rsOf (w : Word) : BitVec 5 := w.extractLsb' 21 5
/-- `w[20:16]` -/
def rtOf (w : Word) : BitVec 5 := w.extractLsb' 16 5
/-- `w[15:11]` -/
def rdOf (w : Word) : BitVec 5 := w.extractLsb' 11 5
/-- `w[10:6]` -/
def shamtOf (w : Word) : BitVec 5 := w.extractLsb' 6 5
/-- `w[5:0]` -/
def functOf (w : Word) : BitVec 6 := w.extractLsb' 0 6
/-- `w[15:0]` -/
def imm16Of (w : Word) : BitVec 16 := w.extractLsb' 0 16
/-- `w[25:0]` -/
def idx26Of (w : Word) : BitVec 26 := w.extractLsb' 0 26

/-- The signed reading of `imm16`: the integer that `sext_16` holds in 32 bits (R81). -/
def immOf (w : Word) : Int := (imm16Of w).toInt

/-- The unsigned reading of `idx26` (R81). -/
def idxOf (w : Word) : Int := ((idx26Of w).toNat : Int)

/-- `sext_16` (R81, 00_scope.md section 5). -/
def sext16 (v : BitVec 16) : Word := v.signExtend 32

/-- `zext_26` (R81, 00_scope.md section 5). -/
def zext26 (v : BitVec 26) : Word := v.zeroExtend 32

/-! ### The decoder (R76) -/

/-- Why a word is refused: there is one reason, and it is named (R76, R82). -/
inductive DecodeError where
  /-- The word matches no row of the opcode map (R82). -/
  | malformed (w : Word)
deriving DecidableEq, Repr

/-- `decode_word` of R76, total on the 32-bit words. -/
def decodeWord (w : Word) : Except DecodeError Instr :=
  if op6Of w = 0x00 ∧ shamtOf w = 0 ∧ functOf w = 0x20 then
    .ok (.add (rdOf w).toNat (rsOf w).toNat (rtOf w).toNat)
  else if op6Of w = 0x00 ∧ shamtOf w = 0 ∧ functOf w = 0x22 then
    .ok (.sub (rdOf w).toNat (rsOf w).toNat (rtOf w).toNat)
  else if op6Of w = 0x08 then .ok (.addi (rtOf w).toNat (rsOf w).toNat (immOf w))
  else if op6Of w = 0x3B then .ok (.subi (rtOf w).toNat (rsOf w).toNat (immOf w))
  else if op6Of w = 0x23 then .ok (.lw (rtOf w).toNat (immOf w) (rsOf w).toNat)
  else if op6Of w = 0x2B then .ok (.sw (rtOf w).toNat (immOf w) (rsOf w).toNat)
  else if op6Of w = 0x04 then .ok (.beq (rsOf w).toNat (rtOf w).toNat (immOf w))
  else if op6Of w = 0x02 then .ok (.j (idxOf w))
  else if w = 0xFC000000 then .ok .halt
  else .error (.malformed w)

/-! ### The opcode map (R75) -/

/-- One row of the opcode map: a word selects the row whose `pattern` equals `w AND mask`. -/
structure OpcodeRow where
  mnemonic : String
  pattern : Word
  mask : Word
deriving DecidableEq, Repr

/-- The nine rows of R75. -/
def opcodeMap : List OpcodeRow :=
  [ ⟨"add",  0x00000020, 0xFC0007FF⟩,
    ⟨"sub",  0x00000022, 0xFC0007FF⟩,
    ⟨"addi", 0x20000000, 0xFC000000⟩,
    ⟨"subi", 0xEC000000, 0xFC000000⟩,
    ⟨"lw",   0x8C000000, 0xFC000000⟩,
    ⟨"sw",   0xAC000000, 0xFC000000⟩,
    ⟨"beq",  0x10000000, 0xFC000000⟩,
    ⟨"j",    0x08000000, 0xFC000000⟩,
    ⟨"halt", 0xFC000000, 0xFFFFFFFF⟩ ]

/-- The word selects the row (R75). -/
def OpcodeRow.selects (r : OpcodeRow) (w : Word) : Bool := w &&& r.mask == r.pattern

/-- The spelling of an instruction's opcode (R70, R84), as the opcode map and spec/opcode_table.json have it. -/
def Instr.mnemonic : Instr → String
  | .add _ _ _ => "add"
  | .sub _ _ _ => "sub"
  | .addi _ _ _ => "addi"
  | .subi _ _ _ => "subi"
  | .lw _ _ _ => "lw"
  | .sw _ _ _ => "sw"
  | .beq _ _ _ => "beq"
  | .j _ => "j"
  | .halt => "halt"

/-! ### The encoder (R74, R83) -/

/-- R format: `op6 ++ rs ++ rt ++ rd ++ shamt ++ funct` (R74). -/
def wordR (funct : BitVec 6) (rd rs rt : Nat) : Word :=
  0x00#6 ++ BitVec.ofNat 5 rs ++ BitVec.ofNat 5 rt ++ BitVec.ofNat 5 rd ++ 0#5 ++ funct

/-- I format: `op6 ++ rs ++ rt ++ imm16` (R74), `imm mod 2^16` in the low bits (R83). -/
def wordI (op6 : BitVec 6) (rs rt : Nat) (imm : Int) : Word :=
  op6 ++ BitVec.ofNat 5 rs ++ BitVec.ofNat 5 rt ++ BitVec.ofInt 16 imm

/-- J format: `op6 ++ idx26` (R74). -/
def wordJ (idx : Int) : Word := 0x02#6 ++ BitVec.ofInt 26 idx

/-- `encode` of R83. For an instruction that is not well-formed the answer means nothing: it has no word (R81). -/
def encode : Instr → Word
  | .add rd rs rt => wordR 0x20 rd rs rt
  | .sub rd rs rt => wordR 0x22 rd rs rt
  | .addi rt rs imm => wordI 0x08 rs rt imm
  | .subi rt rs imm => wordI 0x3B rs rt imm
  | .lw rt imm rs => wordI 0x23 rs rt imm
  | .sw rt imm rs => wordI 0x2B rs rt imm
  | .beq rs rt imm => wordI 0x04 rs rt imm
  | .j imm => wordJ imm
  | .halt => 0xFC000000

/-- The assembler's side of R81: an instruction that is not well-formed is refused, it has no binary word. -/
def assembleOne (i : Instr) : Option Word := if i.wellFormed then some (encode i) else none

/-! ### The host's numbering of an opcode-table row -/

/-- The word of a table row whose low `nbits` bits are `w`, the bits above them zero. The instruction is one 32-bit
word (R73) and its bits are numbered as the table numbers them (R74), so nothing is laid out in bytes: the machine
fetches words whole and has no byte order (R58). -/
def tableWord (nbits w : Nat) : Word := BitVec.ofNat 32 (w % 2 ^ nbits)

/-- What the decoder reads from an instruction whose bits are `w`. No instruction is longer than 32 bits (R73). -/
def decodeTableWord (nbits w : Nat) : Option Instr :=
  if nbits ≤ 32 then
    match decodeWord (tableWord nbits w) with
    | .ok i => some i
    | .error _ => none
  else none

end Sys2Proof
end

