-- ==== Sys2Proof/Config.lean ====
section
/-! DEFINITION. The parameters of the implementation (00_scope.md section 3, R8) and the one free value of the
spec: the memory latency that an `lw` or `sw` draws (R176, 92_eei_decisions.md D16, 93 U1). -/

namespace Sys2Proof

/-- An element of LAT_SET = {2, 3}, the additional Memory-stage cycles of one `lw` or `sw` (00_scope.md section 3).
A draw outside the set cannot be written down (93 U19: refused). -/
inductive Latency where
  | two
  | three
deriving DecidableEq, Repr, Inhabited

/-- The number of additional cycles a draw stands for. -/
def Latency.cycles : Latency → Nat
  | .two => 2
  | .three => 3

/-- FREE VALUE (log entry 5): the latency of the n-th draw that the launch did not supply. It has no body: any law but
membership in LAT_SET is left open by the spec ("a free draw, under no law but membership", R176). -/
opaque Config.latencyDraw : Nat → Latency

/-- RESET_PC = 0 (00_scope.md section 3, R44). -/
def Config.resetPc : Word := 0

/-- The number of general registers (00_scope.md section 3, R20). -/
def Config.numRegs : Nat := 32

/-- The instruction address step (00_scope.md section 3, R163). -/
def Config.pcStep : Word := 4

end Sys2Proof
end

