-- ==== Sys2Proof/Machine/State.lean ====
section
/-! DEFINITION. The state of the machine as plain data, the reasons a step can stop, and the state after reset.
The tuple S of 10_state.md, with the instruction store (a launch parameter, R50) and the latency inputs (an input of
each step, R176) held as data, so that one step is a function of the state. -/

namespace Sys2Proof.Machine

/-! ### Decoded instructions -/

/-- The opcode field of a decoded instruction (R30). -/
inductive Op where
  | add | sub | addi | subi | lw | sw | beq | j | halt
deriving DecidableEq, Repr

/-- `alu_op ∈ {add, sub}` (R103). -/
inductive AluOp where
  | add | sub
deriving DecidableEq, Repr

/-- The control-signal vector (R103). -/
structure ControlSignals where
  regWrite : Bool
  memRead : Bool
  memWrite : Bool
  branch : Bool
  jump : Bool
  aluSrc : Bool
  regDst : Bool
  aluOp : AluOp
deriving DecidableEq, Repr

/-- The decoded form of an instruction (R71): an absent field is `none`. The immediate is already extended to 32 bits
(R30, R81). -/
structure MicroOp where
  op : Op
  rs : Option Reg
  rt : Option Reg
  rd : Option Reg
  imm : Option Word
  ctrl : ControlSignals
deriving DecidableEq, Repr

/-! ### Pipeline registers (R28): each is `none` (empty, a bubble) or `some` record -/

/-- IF_ID (R29). -/
structure IfId where
  instr : Word
  pc : Word
deriving DecidableEq, Repr

/-- ID_EX (R30): the MicroOp with the word and the fetch-time address. It holds indices, never register values. -/
structure IdEx extends MicroOp where
  instr : Word
  pc : Word
deriving DecidableEq, Repr

/-- EX_MEM (R31). -/
structure ExMem where
  instr : Word
  pc : Word
  op : Op
  ctrl : ControlSignals
  aluResult : Word
  storeValue : Word
  dest : Option Reg
deriving DecidableEq, Repr

/-- MEM_WB (R32). -/
structure MemWb where
  instr : Word
  pc : Word
  op : Op
  ctrl : ControlSignals
  aluResult : Word
  memData : Word
  dest : Option Reg
deriving DecidableEq, Repr

/-! ### Controller, counters -/

/-- `run_state` (R35). -/
inductive RunState where
  | running | halted | faulted
deriving DecidableEq, Repr

/-- `ctrl_state` (R36, R210): the classification of the last cycle, an output for the reporter. -/
inductive CtrlState where
  | running | loadStall | branchStall | memWait | halted
deriving DecidableEq, Repr

/-- The six statistics counters (R37), natural numbers (92_eei_decisions.md D20). -/
structure Stats where
  totalCycles : Nat
  instructionsRetired : Nat
  stallCycles : Nat
  loadStalls : Nat
  branchesTaken : Nat
  memWaitCycles : Nat
deriving DecidableEq, Repr

/-! ### Stores -/

/-- The data store (R54, R56): pairs of an address and its 32-bit cell, addresses strictly rising, no cell that holds
0, which is what an unlisted address holds. A cell is a whole word: there are no bytes (R56), so the pairs are not the
host's byte cells (log entry 2). -/
abbrev Memory := List (Nat × Word)

/-- The instruction store (R50): pairs of a present address and its word, addresses strictly rising. An unlisted
address is absent. -/
abbrev InstrStore := List (Nat × Word)

/-- The 32 general registers (R20). Register 0 is an ordinary slot (R23). -/
abbrev RegFile := Vector Word 32

/-! ### The state -/

/-- S (10_state.md). -/
structure State where
  /-- the address of the next instruction to fetch (R24) -/
  pc : Word
  /-- x[0..31] (R20) -/
  x : RegFile
  /-- DMEM (R54) -/
  dmem : Memory
  /-- IMEM (R50), constant during a run -/
  imem : InstrStore
  /-- IF_ID (R29) -/
  ifId : Option IfId
  /-- ID_EX (R30) -/
  idEx : Option IdEx
  /-- EX_MEM (R31) -/
  exMem : Option ExMem
  /-- MEM_WB (R32) -/
  memWb : Option MemWb
  /-- `mem_cycles_left` (R34) -/
  memCyclesLeft : Nat
  /-- `run_state` (R35) -/
  runState : RunState
  /-- `ctrl_state` (R36) -/
  ctrlState : CtrlState
  /-- the six counters (R37) -/
  stats : Stats
  /-- the draws the launch supplied and no `lw` or `sw` has consumed yet (R8, R176; log entry 5) -/
  latencyInputs : List Latency
  /-- the model's own field: how many draws have been consumed; it numbers the free value (log entry 5) -/
  drawsTaken : Nat
deriving DecidableEq, Repr

/-- The reasons a step can stop with a fault. -/
inductive Fault where
  /-- `MalformedInstruction` with the offending word and its fetch-time address (R230, R231). Raised by the Decode
  stage alone (R107), through `raiseMalformed`. SAFE: it is the spec's own terminal outcome; the spec leaves the state
  after it unspecified and asks for no state (R231). -/
  | malformedInstruction (word : Word) (pc : Word)
deriving DecidableEq, Repr

/-- The reasons a step can be refused. -/
inductive Refusal where
  /-- No meaning for the instruction yet; raised by an arm of `exec` alone. SAFE: nothing can be proved of a next
  state. No arm of this model raises it. -/
  | notModelled (mnemonic : String)
deriving DecidableEq, Repr

/-- All six counters 0 (R44). -/
def Stats.zero : Stats := ⟨0, 0, 0, 0, 0, 0⟩

/-- The machine right after reset (R44, R250), with the default launch parameters: every register 0, every data cell
0, the pipeline four bubbles. No instruction address is present and no latency is supplied (log entries 3 and 5). -/
def State.reset : State :=
  { pc := Config.resetPc
    x := Vector.replicate 32 0
    dmem := []
    imem := []
    ifId := none
    idEx := none
    exMem := none
    memWb := none
    memCyclesLeft := 0
    runState := .running
    ctrlState := .running
    stats := Stats.zero
    latencyInputs := []
    drawsTaken := 0 }

end Sys2Proof.Machine
end

