-- ==== Sys2Proof/Machine/Flags.lean ====
section
/-! DEFINITION. The ALU (R105), and the branch comparison. The machine has no condition codes and no status flags: no
carry, overflow or zero flag is kept of any operation (R27, R105, R124). -/

namespace Sys2Proof.Machine

/-- The ALU's two operations, modulo 2^32 (R105). Overflow wraps silently and is not recorded (R124). -/
def alu : AluOp → Word → Word → Word
  | .add, a, b => a + b
  | .sub, a, b => a - b

/-- The comparison of `beq`, on the operand values themselves; nothing is kept of it (R27, R174). -/
def operandsEqual (a b : Word) : Bool := a == b

end Sys2Proof.Machine
end

