-- ==== Sys2Proof/Machine/Ops.lean ====
section
/-! DEFINITION. The named operations over the stores, the registers, the latency input and the one exception. Every
read and write of the stages goes through these. -/

namespace Sys2Proof.Machine

/-! ### Sorted association lists, shared by the two stores -/

/-- The entries without those at address `a`. -/
def eraseAt (a : Nat) : List (Nat × Word) → List (Nat × Word)
  | [] => []
  | p :: m => if p.1 = a then eraseAt a m else p :: eraseAt a m

/-- An entry put before the first entry at a higher address. -/
def insertAt (a : Nat) (v : Word) : List (Nat × Word) → List (Nat × Word)
  | [] => [(a, v)]
  | p :: m => if a < p.1 then (a, v) :: p :: m else p :: insertAt a v m

/-- The first entry at an address. -/
def lookupAt (a : Nat) : List (Nat × Word) → Option Word
  | [] => none
  | p :: m => if p.1 = a then some p.2 else lookupAt a m

/-- Addresses strictly rising, all at least `lo`. -/
def risingFrom (lo : Nat) : List (Nat × Word) → Bool
  | [] => true
  | p :: m => decide (lo ≤ p.1) && risingFrom (p.1 + 1) m

/-! ### The data store (R54, R55, R56) -/

/-- What a cell that was never written and not preloaded holds (R54, 93 U8). -/
def Memory.unlisted : Word := 0

/-- `MemRead(a, 4)`: the whole 32-bit cell at `a` (R54). -/
def Memory.read (m : Memory) (a : Word) : Word := (lookupAt a.toNat m).getD Memory.unlisted

/-- `MemWrite(a, 4, v)`: the cell at `a` holds `v`, no other cell changes (R55). Writing what an unlisted address
holds removes the entry. -/
def Memory.write (m : Memory) (a v : Word) : Memory :=
  if v = Memory.unlisted then eraseAt a.toNat m else insertAt a.toNat v (eraseAt a.toNat m)

/-- The canonical form: addresses strictly rising and below 2^32, no listed cell equal to an unlisted one. -/
def Memory.wf (m : Memory) : Bool :=
  risingFrom 0 m && m.all (fun p => decide (p.1 < 2 ^ 32)) && m.all (fun p => decide (p.2 ≠ Memory.unlisted))

/-! ### The instruction store (R50, R51) -/

/-- `IFetch(a)`: the word at `a` when `a` is present, else `none`, which is no error (R51). -/
def InstrStore.fetch (m : InstrStore) (a : Word) : Option Word := lookupAt a.toNat m

/-- The instruction store with the word `w` at `a`. No instruction does this (R52): it is the launch's doing. -/
def InstrStore.place (m : InstrStore) (a w : Word) : InstrStore := insertAt a.toNat w (eraseAt a.toNat m)

/-- Present addresses strictly rising, each a multiple of 4 from 0 to 2^32 − 4 (R50). -/
def InstrStore.wf (m : InstrStore) : Bool :=
  risingFrom 0 m && m.all (fun p => decide (p.1 < 2 ^ 32)) && m.all (fun p => decide (p.1 % 4 = 0))

/-! ### The general registers (R20, R22, R23) -/

/-- A read of `x[r]` returns the slot's content, register 0 included (R23). -/
def RegFile.read (x : RegFile) (r : Reg) : Word := x.get r

/-- `x[d] <- v`; a write to register 0 is dropped (R22). -/
def RegFile.write (x : RegFile) (d : Reg) (v : Word) : RegFile := if d = 0 then x else x.set d.val v d.isLt

/-! ### The latency input (R176) -/

/-- `draw()`: the next supplied draw, or, where the launch supplied no more, the free value (log entry 5). -/
def State.draw (s : State) : Latency :=
  match s.latencyInputs with
  | [] => Config.latencyDraw s.drawsTaken
  | l :: _ => l

/-! ### The one exception (R230, R235) -/

/-- `raise MalformedInstruction(w, a)`: the terminal fault outcome with the word and its fetch-time address (R230,
R231). Nothing is saved, no handler exists, no mode changes (R235); there is no return from it, so no operation for
one. -/
def raiseMalformed (w a : Word) : Host.Outcome State Fault Refusal := .fault (.malformedInstruction w a)

end Sys2Proof.Machine
end

