-- ==== Sys2Proof/Machine/Operands.lean ====
section
/-! DEFINITION. The control vector (R104), the operand forms of the instructions and the MicroOps they give (R71), and
the operand read of Execute: write-through, bypass, second operand, destination (R170 to R173, R106). -/

namespace Sys2Proof.Machine

/-! ### Control vector (R104) -/

/-- `control(op)`: the table of R104. -/
def controlOf : Op → ControlSignals
  | .add  => ⟨true,  false, false, false, false, false, true,  .add⟩
  | .sub  => ⟨true,  false, false, false, false, false, true,  .sub⟩
  | .addi => ⟨true,  false, false, false, false, true,  false, .add⟩
  | .subi => ⟨true,  false, false, false, false, true,  false, .sub⟩
  | .lw   => ⟨true,  true,  false, false, false, true,  false, .add⟩
  | .sw   => ⟨false, false, true,  false, false, true,  false, .add⟩
  | .beq  => ⟨false, false, false, true,  false, false, false, .sub⟩
  | .j    => ⟨false, false, false, false, true,  false, false, .add⟩
  | .halt => ⟨false, false, false, false, false, false, false, .add⟩

/-! ### Operand forms (R70, R71, R72): `none` where the operands are malformed -/

/-- A register operand (R72: an index above 31 is malformed). -/
def regOperand (n : Nat) : Option Reg := if h : n < 32 then some ⟨n, h⟩ else none

/-- A 16-bit signed immediate, held as 32 bits (R81; R72: out of range is malformed). -/
def immOperand (i : Int) : Option Word := if imm16Ok i then some (BitVec.ofInt 32 i) else none

/-- A 26-bit unsigned word index, held as 32 bits (R81; R72). -/
def idxOperand (i : Int) : Option Word := if idx26Ok i then some (BitVec.ofInt 32 i) else none

/-- `add`, `sub`: rs, rt and rd present, imm absent (R71). -/
def formR (op : Op) (rd rs rt : Nat) : Option MicroOp :=
  match regOperand rd, regOperand rs, regOperand rt with
  | some d, some a, some b => some ⟨op, some a, some b, some d, none, controlOf op⟩
  | _, _, _ => none

/-- `addi`, `subi`, `lw`, `sw`, `beq`: rs, rt and imm present, rd absent (R71). -/
def formI (op : Op) (rs rt : Nat) (imm : Int) : Option MicroOp :=
  match regOperand rs, regOperand rt, immOperand imm with
  | some a, some b, some i => some ⟨op, some a, some b, none, some i, controlOf op⟩
  | _, _, _ => none

/-- `j`: imm present alone (R71). -/
def formJ (imm : Int) : Option MicroOp :=
  match idxOperand imm with
  | some i => some ⟨.j, none, none, none, some i, controlOf .j⟩
  | none => none

/-- `halt`: every field absent (R71). -/
def formH : Option MicroOp := some ⟨.halt, none, none, none, none, controlOf .halt⟩

/-- The MicroOp of an instruction (R71, R100): `none` where it is malformed (R72). -/
def microOp : Instr → Option MicroOp
  | .add rd rs rt => formR .add rd rs rt
  | .sub rd rs rt => formR .sub rd rs rt
  | .addi rt rs imm => formI .addi rs rt imm
  | .subi rt rs imm => formI .subi rs rt imm
  | .lw rt imm rs => formI .lw rs rt imm
  | .sw rt imm rs => formI .sw rs rt imm
  | .beq rs rt imm => formI .beq rs rt imm
  | .j imm => formJ imm
  | .halt => formH

/-- The MicroOp of a word (R76, R100): `none` where the word is malformed. -/
def microOpOfWord (w : Word) : Option MicroOp :=
  match decodeWord w with
  | .ok i => microOp i
  | .error _ => none

/-! ### Destination and result (R106, R185) -/

/-- `dest = rd` if present, else `rt` (R106). -/
def MicroOp.dest (m : MicroOp) : Option Reg :=
  match m.rd with
  | some d => some d
  | none => m.rt

/-- `wb_value(W)`: the loaded cell of a load, else the ALU result (R185). -/
def MemWb.value (w : MemWb) : Word := if w.ctrl.memRead then w.memData else w.aluResult

/-- The registers as Writeback of one instruction leaves them: its result in its destination where `reg_write` is set
(R185), dropped for register 0 (R22). -/
def MemWb.writeTo (w : MemWb) (x : RegFile) : RegFile :=
  match w.ctrl.regWrite, w.dest with
  | true, some d => x.write d w.value
  | _, _ => x

/-! ### Operand read of Execute (R170 to R172) -/

/-- The register file after this cycle's Writeback (R185, R22): Execute reads this one, the write-through of R171. -/
def State.regsAfterWb (s : State) : RegFile :=
  match s.memWb with
  | none => s.x
  | some w => w.writeTo s.x

/-- The bypass supplies register `r`: EX_MEM holds a register-writing instruction that is no load and whose
destination is `r`, and `r` is not 0 (R172). -/
def ExMem.bypasses (x : ExMem) (r : Reg) : Bool :=
  decide (r ≠ 0) && x.ctrl.regWrite && !x.ctrl.memRead && decide (x.dest = some r)

/-- `operand(r)`: the bypass has priority over the write-through (R172). -/
def State.operand (s : State) (r : Reg) : Word :=
  match s.exMem with
  | none => RegFile.read s.regsAfterWb r
  | some x => if x.bypasses r then x.aluResult else RegFile.read s.regsAfterWb r

/-- An absent source reads as 0 (R170). -/
def State.operandOrZero (s : State) : Option Reg → Word
  | none => 0
  | some r => s.operand r

/-- The immediate as 32 bits. It is present whenever it is used (R173); in a state no run reaches, an absent one
reads as 0 (log entry 10). -/
def MicroOp.immValue (m : MicroOp) : Word := m.imm.getD 0

/-- The second ALU operand: the immediate if `alu_src` is set, else the `rt` value (R173). -/
def MicroOp.secondOperand (m : MicroOp) (rtVal : Word) : Word := if m.ctrl.aluSrc then m.immValue else rtVal

/-- The ALU result (R173, R105). -/
def MicroOp.result (m : MicroOp) (rsVal rtVal : Word) : Word := alu m.ctrl.aluOp rsVal (m.secondOperand rtVal)

/-- A branch target: `pc + 4 + imm × 4`, modulo 2^32 (R174, R81). -/
def branchTarget (pc imm : Word) : Word := pc + 4 + imm * 4

/-- A jump target: `imm × 4`, modulo 2^32 (R175, R81). -/
def jumpTarget (imm : Word) : Word := imm * 4

/-- The redirect Execute raises (R174, R175); a jump's wins where both bits are set, which no instruction has
(R104, R188). -/
def MicroOp.redirect (m : MicroOp) (pc rsVal rtVal : Word) : Option Word :=
  if m.ctrl.jump then some (jumpTarget m.immValue)
  else if m.ctrl.branch && operandsEqual rsVal rtVal then some (branchTarget pc m.immValue)
  else none

end Sys2Proof.Machine
end

