-- ==== Sys2Proof/Machine/Stages.lean ====
section
/-! DEFINITION. The five stages, the stall controller, the counters and the cycle they make together (45_pipeline_stages.md
R160 to R188, 46_hazard_stall_controller.md R200 to R213), in the synchronous reading of R161: each piece of the next
state is a function of the state at the start of the cycle.

The argument `y` is what the decoder makes of the word in IF_ID: its MicroOp, or `none` where the word is malformed
(R100). It means nothing where IF_ID is empty. -/

namespace Sys2Proof.Machine

/-- What the decoder makes of IF_ID in this state (R100). -/
def State.inDecode (s : State) : Option MicroOp :=
  match s.ifId with
  | none => none
  | some f => microOpOfWord f.instr

/-! ### Stall signals (R200 to R208) -/

/-- `mem_wait`, on the start-of-cycle counter (R201). -/
def State.memWait (s : State) : Bool := s.exMem.isSome && decide (0 < s.memCyclesLeft)

/-- A present source index equal to a present destination index (R203). -/
def sameReg : Option Reg → Option Reg → Bool
  | some a, some b => decide (a = b)
  | _, _ => false

/-- `load_use` (R203): Execute runs on a load, and the instruction in IF_ID has a present `rs` or `rt` equal to the
load's destination. Register 0 and an `rt` that is a destination are not exempt (R204). -/
def State.loadUse (y : Option MicroOp) (s : State) : Bool :=
  !s.memWait &&
  match s.idEx, s.ifId, y with
  | some i, some _, some m => i.ctrl.memRead && (sameReg m.rs i.dest || sameReg m.rt i.dest)
  | _, _, _ => false

/-- `id_run` (R208). -/
def State.idRun (y : Option MicroOp) (s : State) : Bool := !s.memWait && !s.loadUse y

/-- `branch_stall`: Decode runs on a `beq` or a `j` (R206). -/
def State.branchStall (y : Option MicroOp) (s : State) : Bool :=
  s.idRun y && s.ifId.isSome &&
  match y with
  | some m => m.ctrl.branch || m.ctrl.jump
  | none => false

/-- `if_run` (R208). -/
def State.ifRun (y : Option MicroOp) (s : State) : Bool := s.idRun y && !s.branchStall y

/-! ### Writeback (R184 to R187) -/

/-- Writeback counts a retirement: MEM_WB is not empty and holds no `halt` (R186). -/
def State.retires (s : State) : Bool :=
  match s.memWb with
  | none => false
  | some w => decide (w.op ≠ .halt)

/-- Writeback consumes `halt` (R187). -/
def State.halting (s : State) : Bool :=
  match s.memWb with
  | none => false
  | some w => decide (w.op = .halt)

/-! ### Memory (R180 to R182) -/

/-- What a perform cycle hands to Writeback (R182). -/
def ExMem.perform (x : ExMem) (d : Memory) : MemWb :=
  { instr := x.instr
    pc := x.pc
    op := x.op
    ctrl := x.ctrl
    aluResult := x.aluResult
    memData := if x.ctrl.memRead then d.read x.aluResult else 0
    dest := x.dest }

/-- MEM_WB at the end of the cycle: empty after a bubble (R180) or a wait cycle (R181), else what was performed. -/
def State.memWbNext (s : State) : Option MemWb :=
  match s.exMem with
  | none => none
  | some x => if s.memWait then none else some (x.perform s.dmem)

/-- The data store as one instruction in EX_MEM leaves it when it is performed (R182). -/
def ExMem.storeTo (x : ExMem) (d : Memory) : Memory :=
  if x.ctrl.memWrite then d.write x.aluResult x.storeValue else d

/-- The data store at the end of the cycle: written in the perform cycle of a store alone (R182, R55). -/
def State.dmemNext (s : State) : Memory :=
  match s.exMem with
  | none => s.dmem
  | some x => if s.memWait then s.dmem else x.storeTo s.dmem

/-! ### Execute (R168 to R177) -/

/-- What Execute makes of the occupant of ID_EX (R177), with the operand values of R170. -/
def IdEx.execute (i : IdEx) (rsVal rtVal : Word) : ExMem :=
  { instr := i.instr
    pc := i.pc
    op := i.op
    ctrl := i.ctrl
    aluResult := i.result rsVal rtVal
    storeValue := rtVal
    dest := i.dest }

/-- EX_MEM at the end of the cycle: held in a wait cycle (R169), else from ID_EX (R168, R177). -/
def State.exMemNext (s : State) : Option ExMem :=
  if s.memWait then s.exMem
  else match s.idEx with
    | none => none
    | some i => some (i.execute (s.operandOrZero i.rs) (s.operandOrZero i.rt))

/-- The redirect of this cycle (R174, R175); none in a wait cycle (R169). -/
def State.redirect (s : State) : Option Word :=
  if s.memWait then none
  else match s.idEx with
    | none => none
    | some i => i.redirect i.pc (s.operandOrZero i.rs) (s.operandOrZero i.rt)

/-- Execute finds a branch taken (R174); a jump is not counted (R175). -/
def State.branchTaken (s : State) : Bool :=
  !s.memWait &&
  match s.idEx with
  | none => false
  | some i => i.ctrl.branch && operandsEqual (s.operandOrZero i.rs) (s.operandOrZero i.rt)

/-- Execute draws a latency: it runs on an `lw` or an `sw` (R176). -/
def State.draws (s : State) : Bool :=
  !s.memWait &&
  match s.idEx with
  | none => false
  | some i => i.ctrl.memRead || i.ctrl.memWrite

/-- `mem_cycles_left` at the end of the cycle (R176, R168, R181). -/
def State.memCyclesLeftNext (s : State) : Nat :=
  if s.memWait then s.memCyclesLeft - 1
  else if s.draws then s.draw.cycles
  else 0

/-! ### Decode (R166, R167) -/

/-- ID_EX at the end of the cycle: held in a wait cycle, empty after a load stall (R167), else what the decoder makes
of IF_ID (R166). -/
def State.idExNext (y : Option MicroOp) (s : State) : Option IdEx :=
  if s.memWait then s.idEx
  else if s.loadUse y then none
  else match s.ifId, y with
    | some f, some m => some { m with instr := f.instr, pc := f.pc }
    | _, _ => none

/-- The IF_ID record on which Decode raises `MalformedInstruction` in this cycle, if any (R107, R166). -/
def State.malformedInDecode (y : Option MicroOp) (s : State) : Option IfId :=
  if s.idRun y && y.isNone then s.ifId else none

/-! ### Fetch (R163 to R165) -/

/-- The fetch address: the redirect of this cycle, otherwise `pc` (R164). -/
def State.fetchAddr (s : State) : Word := s.redirect.getD s.pc

/-- What Fetch leaves in IF_ID when it runs (R163). -/
def State.fetched (s : State) : Option IfId :=
  match s.imem.fetch s.fetchAddr with
  | some w => some { instr := w, pc := s.fetchAddr }
  | none => none

/-- IF_ID at the end of the cycle: from Fetch (R163), empty in a branch stall, held otherwise (R165). -/
def State.ifIdNext (y : Option MicroOp) (s : State) : Option IfId :=
  if s.ifRun y then s.fetched
  else if s.branchStall y then none
  else s.ifId

/-- `pc` at the end of the cycle (R163, R165). -/
def State.pcNext (y : Option MicroOp) (s : State) : Word :=
  if s.ifRun y && s.fetched.isSome then s.fetchAddr + Config.pcStep else s.fetchAddr

/-! ### Statistics and controller state (R210, R212) -/

/-- One more where the event happened. -/
def countIf (b : Bool) (n : Nat) : Nat := if b then n + 1 else n

/-- The six counters at the end of the cycle (R212). -/
def State.statsNext (y : Option MicroOp) (s : State) : Stats :=
  { totalCycles := s.stats.totalCycles + 1
    instructionsRetired := countIf s.retires s.stats.instructionsRetired
    stallCycles := countIf (s.loadUse y || s.branchStall y) s.stats.stallCycles
    loadStalls := countIf (s.loadUse y) s.stats.loadStalls
    branchesTaken := countIf s.branchTaken s.stats.branchesTaken
    memWaitCycles := countIf s.memWait s.stats.memWaitCycles }

/-- The classification of the cycle (R210). -/
def State.ctrlStateNext (y : Option MicroOp) (s : State) : CtrlState :=
  if s.halting then .halted
  else if s.memWait then .memWait
  else if s.loadUse y then .loadStall
  else if s.branchStall y then .branchStall
  else .running

/-! ### The cycle (R160, R161, R188) -/

/-- S' of a cycle that raises no fault (R188). -/
def State.cycleNext (y : Option MicroOp) (s : State) : State :=
  { pc := s.pcNext y
    x := s.regsAfterWb
    dmem := s.dmemNext
    imem := s.imem
    ifId := s.ifIdNext y
    idEx := s.idExNext y
    exMem := s.exMemNext
    memWb := s.memWbNext
    memCyclesLeft := s.memCyclesLeftNext
    runState := if s.halting then .halted else s.runState
    ctrlState := s.ctrlStateNext y
    stats := s.statsNext y
    latencyInputs := if s.draws then s.latencyInputs.tail else s.latencyInputs
    drawsTaken := countIf s.draws s.drawsTaken }

/-- One clock cycle, with `y` what the decoder makes of IF_ID. A cycle is taken only while the machine runs (R160); in
`halted` and `faulted` no state changes (R35; log entry 6). A fault discards S', also where `halt` retires in the same
cycle (R188, R233). -/
def cycle (y : Option MicroOp) (s : State) : Host.Outcome State Fault Refusal :=
  match s.runState with
  | .running =>
    match s.malformedInDecode y with
    | some f => raiseMalformed f.instr f.pc
    | none => .next (s.cycleNext y)
  | .halted => .next s
  | .faulted => .next s

end Sys2Proof.Machine
end

