-- ==== Sys2Proof/Machine/Arithmetic.lean ====
section
/-! DEFINITION. The meanings of `add`, `sub`, `addi`, `subi` (41_arithmetic.md R120 to R125).

A meaning is the clock cycle in which its instruction is in Decode (log entry 1): the decoder turns it into its MicroOp
and control vector (R71, R100, R104), which is all that distinguishes one instruction from another in this core; the
stages carry it from there. Execute computes its result from the operand values (R170 to R173), Memory carries it
(R182), Writeback writes it (R185). -/

namespace Sys2Proof.Machine

/-- `add rd, rs, rt` (R120): `x[rd] <- x[rs] + x[rt]` mod 2^32, dropped when `rd = 0`. -/
def execAdd (rd rs rt : Nat) (s : State) : Host.Outcome State Fault Refusal :=
  cycle (formR .add rd rs rt) s

/-- `sub rd, rs, rt` (R121): `x[rd] <- x[rs] − x[rt]` mod 2^32, dropped when `rd = 0`. -/
def execSub (rd rs rt : Nat) (s : State) : Host.Outcome State Fault Refusal :=
  cycle (formR .sub rd rs rt) s

/-- `addi rt, rs, imm` (R122): `x[rt] <- x[rs] + imm` mod 2^32, dropped when `rt = 0`. -/
def execAddi (rt rs : Nat) (imm : Int) (s : State) : Host.Outcome State Fault Refusal :=
  cycle (formI .addi rs rt imm) s

/-- `subi rt, rs, imm` (R123): `x[rt] <- x[rs] − imm` mod 2^32, dropped when `rt = 0`. -/
def execSubi (rt rs : Nat) (imm : Int) (s : State) : Host.Outcome State Fault Refusal :=
  cycle (formI .subi rs rt imm) s

end Sys2Proof.Machine
end

