-- ==== Sys2Proof/Machine/ControlTransfer.lean ====
section
/-! DEFINITION. The meanings of `beq` and `j` (43_control_transfer.md R140 to R144): the clock cycle in which the
instruction is in Decode (log entry 1), which is a branch-stall cycle (R206). Execute resolves it one executed cycle
later and Fetch goes on from the resolved address in that same cycle (R164, R174, R175). -/

namespace Sys2Proof.Machine

/-- `beq rs, rt, imm` (R140): if `x[rs] = x[rt]` then `pc <- A + 4 + imm × 4`, else `pc <- A + 4`. -/
def execBeq (rs rt : Nat) (imm : Int) (s : State) : Host.Outcome State Fault Refusal :=
  cycle (formI .beq rs rt imm) s

/-- `j imm` (R141): `pc <- imm × 4`. -/
def execJ (imm : Int) (s : State) : Host.Outcome State Fault Refusal :=
  cycle (formJ imm) s

end Sys2Proof.Machine
end

