-- ==== Sys2Proof/Machine/Halt.lean ====
section
/-! DEFINITION. The meaning of `halt` (44_halt.md R150 to R155): the clock cycle in which it is in Decode (log entry 1).
It raises no stall, reads nothing and writes nothing; the run ends in the cycle in which Writeback consumes it
(R151, R187). -/

namespace Sys2Proof.Machine

/-- `halt` (R150): the run ends; no register and no memory cell changes. -/
def execHalt (s : State) : Host.Outcome State Fault Refusal :=
  cycle formH s

end Sys2Proof.Machine
end

