-- ==== Sys2Proof/Machine/LoadStore.lean ====
section
/-! DEFINITION. The meanings of `lw` and `sw` (42_load_store.md R130 to R133): the clock cycle in which the instruction
is in Decode (log entry 1). Execute computes the address, captures the store value and draws the latency (R61, R176,
R177); Memory waits and then reads or writes the cell (R181, R182); Writeback writes the loaded value (R185). -/

namespace Sys2Proof.Machine

/-- `lw rt, imm(rs)` (R130): `x[rt] <- MemRead(x[rs] + imm, 4)`, dropped when `rt = 0`. -/
def execLw (rt : Nat) (imm : Int) (rs : Nat) (s : State) : Host.Outcome State Fault Refusal :=
  cycle (formI .lw rs rt imm) s

/-- `sw rt, imm(rs)` (R131): `MemWrite(x[rs] + imm, 4, x[rt])`. -/
def execSw (rt : Nat) (imm : Int) (rs : Nat) (s : State) : Host.Outcome State Fault Refusal :=
  cycle (formI .sw rs rt imm) s

end Sys2Proof.Machine
end

