-- ==== Sys2Proof/Machine/Step.lean ====
section
/-! DEFINITION. One step of the machine: one clock cycle (R10, R160, R188). -/

namespace Sys2Proof.Machine

/-- One clock cycle (R188). The word in IF_ID is decoded (R100) and the cycle runs with its instruction in Decode; with
IF_ID empty no instruction is in Decode, and with a malformed word Decode, if it runs, raises the fault (R166). -/
def step (s : State) : Host.Outcome State Fault Refusal :=
  match s.ifId with
  | none => cycle none s
  | some f =>
    match decodeWord f.instr with
    | .ok i => exec i s
    | .error _ => cycle none s

/-- `s` with a word placed so that the very next step decodes and runs it: the word is present at `pc`, and IF_ID and
`pc` are as the Fetch stage leaves them after fetching it (R163). So that Decode runs in that step, the machine runs,
no memory operation waits and no load is in Execute. Log entry 7 says how a program comes to run from reset. -/
def State.withFetchWord (s : State) (nbits w : Nat) : State :=
  { s with
    imem := InstrStore.place s.imem s.pc (tableWord nbits w)
    ifId := some { instr := tableWord nbits w, pc := s.pc }
    pc := s.pc + Config.pcStep
    idEx := none
    memCyclesLeft := 0
    runState := .running }

end Sys2Proof.Machine
end

