-- ==== Sys2Proof/Machine/InPlace.lean ====
section
/-! DEFINITION. The cycle as R160 tells it: the five stages evaluated in place, one after another in reverse pipeline
order on shared mutable state, each signal of R162 handed from an earlier stage to a later one. The machine's step is
the synchronous reading (Stages.lean, R161); this is the other formulation, which R161 says gives the same S'. -/

namespace Sys2Proof.Machine

/-- Writeback in place: the registers and the retirement counter change (R185, R186). -/
def writebackInPlace (s : State) : State :=
  match s.memWb with
  | none => s
  | some w =>
    let s := if w.op = .halt then s
      else { s with stats := { s.stats with instructionsRetired := s.stats.instructionsRetired + 1 } }
    { s with x := w.writeTo s.x }

/-- Memory in place, with its answer whether it waits (R180 to R182). -/
def memoryInPlace (s : State) : State × Bool :=
  match s.exMem with
  | none => ({ s with memWb := none }, false)
  | some e =>
    if 0 < s.memCyclesLeft then
      ({ s with
          memWb := none
          memCyclesLeft := s.memCyclesLeft - 1
          stats := { s.stats with memWaitCycles := s.stats.memWaitCycles + 1 } }, true)
    else ({ s with memWb := some (e.perform s.dmem), dmem := e.storeTo s.dmem }, false)

/-- The operand read of Execute in place: the bypass, else the register file Writeback has already changed. -/
def operandInPlace (s : State) : Option Reg → Word
  | none => 0
  | some r =>
    match s.exMem with
    | none => s.x.read r
    | some e => if e.bypasses r then e.aluResult else s.x.read r

/-- Execute in place, when Memory does not wait, with its answer whether a load-use hazard is found (R168 to R177,
R203). A redirect writes `pc`. -/
def executeInPlace (y : Option MicroOp) (s : State) : State × Bool :=
  match s.idEx with
  | none => ({ s with exMem := none, memCyclesLeft := 0 }, false)
  | some i =>
    let rsVal := operandInPlace s i.rs
    let rtVal := operandInPlace s i.rt
    let isMem := i.ctrl.memRead || i.ctrl.memWrite
    let taken := i.ctrl.branch && operandsEqual rsVal rtVal
    let hazard :=
      match s.ifId, y with
      | some _, some m => i.ctrl.memRead && (sameReg m.rs i.dest || sameReg m.rt i.dest)
      | _, _ => false
    ({ s with
        pc := (i.redirect i.pc rsVal rtVal).getD s.pc
        exMem := some (i.execute rsVal rtVal)
        memCyclesLeft := if isMem then s.draw.cycles else 0
        latencyInputs := if isMem then s.latencyInputs.tail else s.latencyInputs
        drawsTaken := countIf isMem s.drawsTaken
        stats := { s.stats with branchesTaken := countIf taken s.stats.branchesTaken } }, hazard)

/-- Decode in place, when Execute ran and found no hazard: the new state with its answer whether a branch or jump was
decoded, or the IF_ID record of a malformed word (R166, R206). -/
def decodeInPlace (y : Option MicroOp) (s : State) : Except IfId (State × Bool) :=
  match s.ifId, y with
  | none, _ => .ok ({ s with idEx := none }, false)
  | some f, none => .error f
  | some f, some m =>
    let stall := m.ctrl.branch || m.ctrl.jump
    .ok ({ s with
            idEx := some { m with instr := f.instr, pc := f.pc }
            stats := { s.stats with stallCycles := countIf stall s.stats.stallCycles } }, stall)

/-- Fetch in place, when nothing suppresses it, from the `pc` Execute may have written (R163, R164). -/
def fetchInPlace (s : State) : State :=
  match s.imem.fetch s.pc with
  | some w => { s with ifId := some { instr := w, pc := s.pc }, pc := s.pc + Config.pcStep }
  | none => { s with ifId := none }

/-- The controller's last word on the cycle (R210, R187). -/
def classifyInPlace (halting : Bool) (c : CtrlState) (s : State) : State :=
  if halting then { s with ctrlState := .halted, runState := .halted } else { s with ctrlState := c }

/-- The cycle in place (R160). -/
def cycleInPlace (y : Option MicroOp) (s : State) : Host.Outcome State Fault Refusal :=
  match s.runState with
  | .running =>
    let halting := s.halting
    let s := { s with stats := { s.stats with totalCycles := s.stats.totalCycles + 1 } }
    let (s, waiting) := memoryInPlace (writebackInPlace s)
    if waiting then .next (classifyInPlace halting .memWait s)
    else
      let (s, hazard) := executeInPlace y s
      if hazard then
        let s := { s with
          idEx := none
          stats := { s.stats with
            stallCycles := s.stats.stallCycles + 1
            loadStalls := s.stats.loadStalls + 1 } }
        .next (classifyInPlace halting .loadStall s)
      else
        match decodeInPlace y s with
        | .error f => raiseMalformed f.instr f.pc
        | .ok (s, stall) =>
          if stall then .next (classifyInPlace halting .branchStall { s with ifId := none })
          else .next (classifyInPlace halting .running (fetchInPlace s))
  | .halted => .next s
  | .faulted => .next s

end Sys2Proof.Machine
end

