-- ==== Sys2Proof/Machine/Launch.lean ====
section
/-! DEFINITION. The launch: what the bootstrap collaborator supplies before the first cycle (R8, R43, R44, R252), the
placement of a program (R84) and the resolved form of labels (R86), and the synchronous reset (R42). -/

namespace Sys2Proof.Machine

/-- The launch parameters (R8): the instruction store, the initial data store, the initial register file, RESET_PC and
the latency draws, each with the spec's default (00_scope.md section 3). -/
structure Launch where
  imem : InstrStore := []
  dmem0 : Memory := []
  rf0 : RegFile := Vector.replicate 32 0
  resetPc : Word := Config.resetPc
  draws : List Latency := []
deriving DecidableEq, Repr

/-- The stores are in canonical form and every present address is a multiple of 4 (R50), RF0[0] = 0 (R23, R44, R252),
RESET_PC is a multiple of 4 (R26). -/
def Launch.ok (l : Launch) : Bool :=
  l.imem.wf && l.dmem0.wf && decide (l.rf0.read 0 = 0) && decide (l.resetPc.toNat % 4 = 0)

/-- The reset state with the launch parameters (R44, R250). -/
def Launch.initial (l : Launch) : State :=
  { State.reset with
    pc := l.resetPc
    x := l.rf0
    dmem := l.dmem0
    imem := l.imem
    latencyInputs := l.draws }

/-- The start of a run; a launch that breaks the requirements of R252 is refused (93 U9). -/
def Launch.start (l : Launch) : Option State := if l.ok then some l.initial else none

/-- Instructions placed one after another from line `k` on: the instruction on line `k` is at address `4 × k` (R84); one
that has no word is refused (R81, 93 U16). -/
def placeFrom (k : Nat) : List Instr → Option InstrStore
  | [] => some []
  | i :: p =>
    match assembleOne i, placeFrom (k + 1) p with
    | some w, some m => some ((4 * k, w) :: m)
    | _, _ => none

/-- The instruction store of a program text (R84). -/
def placeProgram (p : List Instr) : Option InstrStore := placeFrom 0 p

/-- The resolved operand of a `beq` at address `here` to a label at `target` (R86). -/
def branchOffset (target here : Int) : Int := (target - (here + 4)) / 4

/-- The resolved operand of a `j` to a label at `target` (R86). -/
def jumpIndex (target : Int) : Int := target / 4

/-- Reset: every piece of state takes its value of R44; the instruction store and the latency source are inputs, not
state, and stay (10_state.md header, log entry 11). Refused for the launches `start` refuses: R44 requires RF0[0] = 0. -/
def State.applyReset (l : Launch) (s : State) : Option State :=
  l.start.map (fun t => { t with
    imem := s.imem
    latencyInputs := s.latencyInputs
    drawsTaken := s.drawsTaken })

/-- One rising edge with the reset port: synchronous; while `rst` is asserted the state takes the reset values, else it
is one cycle (R42). `none` where `rst` is asserted with launch parameters R44 forbids. -/
def clockEdge (l : Launch) (rst : Bool) (s : State) : Option (Host.Outcome State Fault Refusal) :=
  if rst then (s.applyReset l).map .next else some (step s)

end Sys2Proof.Machine
end

