-- ==== Sys2Proof/Machine/Sequential.lean ====
section
/-! DEFINITION. The sequential machine of R189 with the architectural effect of each instruction (R120 to R123, R130,
R131, R140, R141, R150), and the architectural view of a pipeline state: what the sequential machine's state is when
the instructions already past Decode have been completed and none younger has begun. -/

namespace Sys2Proof.Machine

/-- The state of the sequential machine (R189): the address of the next instruction, or `none` once `halt` has been
performed; the registers; the data store. -/
structure Arch where
  pc : Option Word
  x : RegFile
  dmem : Memory
deriving DecidableEq, Repr

/-- The value of an operand register by its number. -/
def Arch.reg (a : Arch) (n : Nat) : Word :=
  match regOperand n with
  | some r => a.x.read r
  | none => 0

/-- The registers after `x[n] <- v`, dropped when `n = 0` (R22). -/
def Arch.setReg (a : Arch) (n : Nat) (v : Word) : RegFile :=
  match regOperand n with
  | some r => a.x.write r v
  | none => a.x

/-- The effective address of `lw` and `sw` (R61). -/
def Arch.address (a : Arch) (rs : Nat) (imm : Int) : Word := a.reg rs + BitVec.ofInt 32 imm

/-- The architectural effect of a well-formed instruction standing at address `A`, as 41_arithmetic.md to 44_halt.md
give it. -/
def Arch.effectAt (a : Arch) (A : Word) : Instr → Arch
  | .add rd rs rt => { a with pc := some (A + 4), x := a.setReg rd (a.reg rs + a.reg rt) }
  | .sub rd rs rt => { a with pc := some (A + 4), x := a.setReg rd (a.reg rs - a.reg rt) }
  | .addi rt rs imm => { a with pc := some (A + 4), x := a.setReg rt (a.reg rs + BitVec.ofInt 32 imm) }
  | .subi rt rs imm => { a with pc := some (A + 4), x := a.setReg rt (a.reg rs - BitVec.ofInt 32 imm) }
  | .lw rt imm rs => { a with pc := some (A + 4), x := a.setReg rt (a.dmem.read (a.address rs imm)) }
  | .sw rt imm rs => { a with pc := some (A + 4), dmem := a.dmem.write (a.address rs imm) (a.reg rt) }
  | .beq rs rt imm =>
      { a with pc := some (if a.reg rs = a.reg rt then A + 4 + BitVec.ofInt 32 imm * 4 else A + 4) }
  | .j imm => { a with pc := some (BitVec.ofInt 32 imm * 4) }
  | .halt => { a with pc := none }

/-- The effect at the current address; after `halt` nothing has an effect (R153). -/
def Arch.effect (a : Arch) (i : Instr) : Arch :=
  match a.pc with
  | none => a
  | some p => a.effectAt p i

/-- One instruction of the sequential machine: fetch at `pc`, perform the whole effect. `none` after `halt`, at an
absent address, and on a malformed word. -/
def Arch.next (imem : InstrStore) (a : Arch) : Option Arch :=
  match a.pc with
  | none => none
  | some p =>
    match imem.fetch p with
    | none => none
    | some w =>
      match decodeWord w with
      | .ok i => some (a.effectAt p i)
      | .error _ => none

/-- `n` instructions of the sequential machine. -/
def Arch.run (imem : InstrStore) : Nat → Arch → Option Arch
  | 0, a => some a
  | n + 1, a =>
    match a.next imem with
    | some b => Arch.run imem n b
    | none => none

/-- The sequential machine performs `n` instructions and then a `halt`, ending in `b` (R189). -/
def Arch.haltsAfter (imem : InstrStore) (n : Nat) (a b : Arch) : Prop :=
  Arch.run imem (n + 1) a = some b ∧ b.pc = none

/-- The start of the sequential machine for a launch (R189). -/
def Launch.arch (l : Launch) : Arch := { pc := some l.resetPc, x := l.rf0, dmem := l.dmem0 }

/-! ### Premises a program may meet (R57, R124) -/

/-- `ALIGNED_DATA` for one instruction: its data address is a multiple of 4 (R57). -/
def Arch.alignedData (a : Arch) : Instr → Bool
  | .lw _ imm rs => decide ((a.address rs imm).toNat % 4 = 0)
  | .sw _ imm rs => decide ((a.address rs imm).toNat % 4 = 0)
  | _ => true

/-- A mathematical integer in the range −2^31 to 2^31 − 1. -/
def inSignedRange (v : Int) : Bool := decide (-2147483648 ≤ v) && decide (v ≤ 2147483647)

/-- `NO_OVERFLOW` for one instruction: its signed result stays in range (R124). -/
def Arch.noOverflow (a : Arch) : Instr → Bool
  | .add _ rs rt => inSignedRange ((a.reg rs).toInt + (a.reg rt).toInt)
  | .sub _ rs rt => inSignedRange ((a.reg rs).toInt - (a.reg rt).toInt)
  | .addi _ rs imm => inSignedRange ((a.reg rs).toInt + imm)
  | .subi _ rs imm => inSignedRange ((a.reg rs).toInt - imm)
  | _ => true

/-! ### The architectural view of a pipeline state -/

/-- Completing the occupant of MEM_WB (R185); `halt` ends the run, and after it nothing has an effect (R153). -/
def MemWb.complete (w : MemWb) (a : Arch) : Arch :=
  match a.pc with
  | none => a
  | some _ =>
    if w.op = .halt then { a with pc := none }
    else { a with x := w.writeTo a.x }

/-- Completing the occupant of EX_MEM: its data access (R182), then Writeback. -/
def ExMem.complete (e : ExMem) (a : Arch) : Arch :=
  match a.pc with
  | none => a
  | some _ => (e.perform a.dmem).complete { a with dmem := e.storeTo a.dmem }

/-- Completing the occupant of ID_EX: its operands are the registers as every older instruction leaves them; a
redirect sets the next address (R174, R175). -/
def IdEx.complete (i : IdEx) (a : Arch) : Arch :=
  match a.pc with
  | none => a
  | some p =>
    let rsVal := match i.rs with | some r => a.x.read r | none => 0
    let rtVal := match i.rt with | some r => a.x.read r | none => 0
    (i.execute rsVal rtVal).complete { a with pc := some ((i.redirect i.pc rsVal rtVal).getD p) }

/-- The next instruction address where no branch is in Execute: that of the instruction in IF_ID, else `pc` (R24). -/
def State.nextAddr (s : State) : Word :=
  match s.ifId with
  | some f => f.pc
  | none => s.pc

/-- What the occupant of a pipeline register makes of the architectural state; a bubble makes nothing. -/
def completeOpt {α : Type} (f : α → Arch → Arch) : Option α → Arch → Arch
  | none, a => a
  | some r, a => f r a

/-- The architectural view: the occupants of MEM_WB, EX_MEM and ID_EX completed in program order. -/
def State.arch (s : State) : Arch :=
  match s.runState with
  | .running =>
    completeOpt IdEx.complete s.idEx
      (completeOpt ExMem.complete s.exMem
        (completeOpt MemWb.complete s.memWb { pc := some s.nextAddr, x := s.x, dmem := s.dmem }))
  | .halted => { pc := none, x := s.x, dmem := s.dmem }
  | .faulted => { pc := none, x := s.x, dmem := s.dmem }

/-- The pipeline is drained: all four pipeline registers are empty. -/
def State.drained (s : State) : Bool :=
  s.ifId.isNone && s.idEx.isNone && s.exMem.isNone && s.memWb.isNone

end Sys2Proof.Machine
end

