-- ==== Sys2Proof/Safety.lean ====
section
/-! DEFINITION. What counts as a run that has ended and as a run gone wrong (R230, R258), and the invariant of the
pipeline (R23, R26, R45, R46, R47 and what the stages keep between the pipeline registers). -/

namespace Sys2Proof.Machine

/-- A run has ended: `halt` has been retired (R151, R258). -/
def State.ended (s : State) : Bool := decide (s.runState = .halted)

/-- The outcome counts as gone wrong: the machine is faulted, which is not halted (R230). -/
def goneWrong (o : Host.Outcome State Fault Refusal) : Bool :=
  match o with
  | .next s => decide (s.runState = .faulted)
  | .fault _ => true
  | .refused _ => true

/-- `k` cycles from `s`, stopping at a fault (R258). -/
def runFor : Nat → State → Host.Outcome State Fault Refusal
  | 0, s => .next s
  | k + 1, s =>
    match step s with
    | .next t => runFor k t
    | .fault r => .fault r
    | .refused r => .refused r

/-- The occupant of ID_EX is a `beq` or a `j`. -/
def IdEx.transfers (i : IdEx) : Bool := i.ctrl.branch || i.ctrl.jump

/-- The occupant of EX_MEM is an `lw` or an `sw`. -/
def ExMem.isMemOp (e : ExMem) : Bool := e.ctrl.memRead || e.ctrl.memWrite

/-- Decode runs in this cycle on the well-formed instruction `i`, fetched from `a`: the machine runs, IF_ID holds the
instruction's word, and neither a memory wait nor a load-use hazard holds it there (R208). -/
def State.decoding (s : State) (i : Instr) (a : Word) : Prop :=
  s.runState = .running ∧ s.ifId = some { instr := encode i, pc := a } ∧ s.idRun (microOp i) = true

/-- Nothing older is in the pipeline: ID_EX, EX_MEM and MEM_WB are empty. -/
def State.quiet (s : State) : Bool := s.idEx.isNone && s.exMem.isNone && s.memWb.isNone

/-- The invariant of the machine. It holds at the start of every run and every step keeps it; it need not hold in a
state that no run reaches. -/
structure State.Inv (s : State) : Prop where
  /-- the data store is in canonical form (R54) -/
  dmemWf : s.dmem.wf = true
  /-- the instruction store is in canonical form, at multiples of 4 (R50) -/
  imemWf : s.imem.wf = true
  /-- register 0 holds 0 (R23) -/
  zeroReg : s.x.read 0 = 0
  /-- `pc` is a multiple of 4 (R26) -/
  pcAligned : s.pc.toNat % 4 = 0
  /-- IF_ID holds the word present at its address, and `pc` is the next address (R163) -/
  ifIdFetched : ∀ f, s.ifId = some f → s.imem.fetch f.pc = some f.instr ∧ s.pc = f.pc + 4
  /-- ID_EX holds what the decoder makes of its word, which is present at its address (R166) -/
  idExDecoded : ∀ i, s.idEx = some i → microOpOfWord i.instr = some i.toMicroOp ∧ s.imem.fetch i.pc = some i.instr
  /-- EX_MEM carries the opcode, control vector and destination of its word (R177) -/
  exMemDecoded : ∀ e, s.exMem = some e →
    ∃ m, microOpOfWord e.instr = some m ∧ e.op = m.op ∧ e.ctrl = m.ctrl ∧ e.dest = m.dest
  /-- MEM_WB carries the opcode, control vector and destination of its word, and no loaded value but a load's (R182) -/
  memWbDecoded : ∀ w, s.memWb = some w →
    (∃ m, microOpOfWord w.instr = some m ∧ w.op = m.op ∧ w.ctrl = m.ctrl ∧ w.dest = m.dest) ∧
    (w.ctrl.memRead = false → w.memData = 0)
  /-- the counter is at most 3 (R34) -/
  counterBound : s.memCyclesLeft ≤ 3
  /-- the counter is 0 unless a memory operation is in EX_MEM (R45) -/
  counterIdle : (∀ e, s.exMem = some e → e.isMemOp = false) → s.memCyclesLeft = 0
  /-- a memory operation that has just entered EX_MEM, while MEM_WB is not empty, has its whole draw before it (R176,
  R153) -/
  counterFresh : ∀ e w, s.exMem = some e → s.memWb = some w → e.isMemOp = true → 2 ≤ s.memCyclesLeft
  /-- behind a `beq` or `j` in ID_EX nothing is in IF_ID, and `pc` is the address after it (R46, R174) -/
  transferAlone : ∀ i, s.idEx = some i → i.transfers = true → s.ifId = none ∧ s.pc = i.pc + 4
  /-- behind a load in EX_MEM no instruction in ID_EX reads its destination (R47) -/
  loadUseClear : ∀ e i, s.exMem = some e → e.ctrl.memRead = true → s.idEx = some i →
    sameReg i.rs e.dest = false ∧ sameReg i.rt e.dest = false
  /-- `faulted` is an outcome, never a state a step answers (R230, R231) -/
  notFaulted : s.runState ≠ .faulted
  /-- the controller reports HALTED exactly when the run has ended (R35, R210) -/
  haltedShown : s.runState = .halted ↔ s.ctrlState = .halted

end Sys2Proof.Machine
end

