-- ==== Sys2Proof/Certificates/Slice0/Obligations.lean ====
section
/-! DEFINITION. The statements for the provers. Each docstring names the rule of spec/ it formalises.

`exec i s` is the clock cycle in which `i` is in Decode (log entry 1). The effect of an instruction on registers, data
store and next address is stated on `State.arch`, the architectural view: the state of the sequential machine of R189
once the instructions already past Decode have been completed. -/

open Sys2Proof Sys2Proof.Machine

/-! ### Encoding -/

/-- Decoding and encoding are inverse, and the word is the sum of the fields R83 gives. The round trip is an inference
the spec marks in R83 ("derived: from rule R76"), and the layout is R74's, marked "from general knowledge". -/
def Obligations.EncodeDecodeInverse : Prop :=
  (∀ i : Instr, i.wellFormed = true → decodeWord (encode i) = .ok i) ∧
  (∀ (w : Word) (i : Instr), decodeWord w = .ok i → encode i = w) ∧
  (∀ rd rs rt : Reg, (encode (.add rd rs rt)).toNat = rs * 2 ^ 21 + rt * 2 ^ 16 + rd * 2 ^ 11 + 0x20) ∧
  (∀ rd rs rt : Reg, (encode (.sub rd rs rt)).toNat = rs * 2 ^ 21 + rt * 2 ^ 16 + rd * 2 ^ 11 + 0x22) ∧
  (∀ (rs rt : Reg) (imm : Int), imm16Ok imm = true →
    ((encode (.addi rt rs imm)).toNat : Int) = 0x20000000 + rs * 2 ^ 21 + rt * 2 ^ 16 + imm % 2 ^ 16 ∧
    ((encode (.subi rt rs imm)).toNat : Int) = 0xEC000000 + rs * 2 ^ 21 + rt * 2 ^ 16 + imm % 2 ^ 16 ∧
    ((encode (.lw rt imm rs)).toNat : Int) = 0x8C000000 + rs * 2 ^ 21 + rt * 2 ^ 16 + imm % 2 ^ 16 ∧
    ((encode (.sw rt imm rs)).toNat : Int) = 0xAC000000 + rs * 2 ^ 21 + rt * 2 ^ 16 + imm % 2 ^ 16 ∧
    ((encode (.beq rs rt imm)).toNat : Int) = 0x10000000 + rs * 2 ^ 21 + rt * 2 ^ 16 + imm % 2 ^ 16) ∧
  (∀ idx : Int, idx26Ok idx = true → ((encode (.j idx)).toNat : Int) = 0x08000000 + idx) ∧
  encode .halt = 0xFC000000

/-- R75, R82 (numbers of R74, which the spec marks "from general knowledge"): a word decodes to the instruction of the
one row it selects, and is malformed where it selects none. -/
def Obligations.DecodeFollowsOpcodeMap : Prop :=
  ∀ w : Word,
    (∀ i, decodeWord w = .ok i → ∃ r ∈ opcodeMap, r.selects w = true ∧ r.mnemonic = i.mnemonic) ∧
    (decodeWord w = .error (.malformed w) ↔ ∀ r ∈ opcodeMap, r.selects w = false) ∧
    (∀ r ∈ opcodeMap, ∀ r' ∈ opcodeMap, r.selects w = true → r'.selects w = true → r = r')

/-- R71, with the bits of R76 and R81: the fields of the MicroOp are the bits of the word, the immediate extended as R81
says, absent where R71 says. -/
def Obligations.MicroOpFieldsAreWordBits : Prop :=
  ∀ (w : Word) (m : MicroOp), microOpOfWord w = some m →
    (m.rs.map (fun r => r.val) =
      match m.op with | .j => none | .halt => none | _ => some (w.extractLsb' 21 5).toNat) ∧
    (m.rt.map (fun r => r.val) =
      match m.op with | .j => none | .halt => none | _ => some (w.extractLsb' 16 5).toNat) ∧
    (m.rd.map (fun r => r.val) =
      match m.op with | .add => some (w.extractLsb' 11 5).toNat | .sub => some (w.extractLsb' 11 5).toNat | _ => none) ∧
    (m.imm =
      match m.op with
      | .add => none
      | .sub => none
      | .halt => none
      | .j => some ((w.extractLsb' 0 26).zeroExtend 32)
      | _ => some ((w.extractLsb' 0 16).signExtend 32))

/-- Words of 95_test_vectors.md section 2.1 (V-E1, V-E2, V-E5, V-E7, V-E9 to V-E11, V-E14 to V-E17). -/
def Obligations.SampleWordsDecode : Prop :=
  decodeWord 0x00221820 = .ok (.add 3 1 2) ∧
  decodeWord 0x00430822 = .ok (.sub 1 2 3) ∧
  decodeWord 0x2001FFFF = .ok (.addi 1 0 (-1)) ∧
  decodeWord 0xEC218000 = .ok (.subi 1 1 (-32768)) ∧
  decodeWord 0x8C01FFFC = .ok (.lw 1 (-4) 0) ∧
  decodeWord 0xAFFF8000 = .ok (.sw 31 (-32768) 31) ∧
  decodeWord 0x1000FFFF = .ok (.beq 0 0 (-1)) ∧
  decodeWord 0x0BFFFFFF = .ok (.j 0x03FFFFFF) ∧
  decodeWord 0xFC000000 = .ok .halt ∧
  decodeWord 0x00000000 = .error (.malformed 0) ∧
  decodeWord 0x00221821 = .error (.malformed 0x00221821)

/-! ### The instructions: where each completes, with its own effect -/

/-- The effect and control vector of R120. As the model has it, the cycle is the one with the instruction in Decode
(log entry 1, the model's choice), and the effect is stated on the architectural view (log entry 12, an inference of
the model's). -/
def Obligations.AddCompletes : Prop :=
  ∀ (rd rs rt : Reg) (a : Word) (s : State), s.decoding (.add rd rs rt) a →
    ∃ t, exec (.add rd rs rt) s = .next t ∧
      t.idEx = some
        { op := .add, rs := some rs, rt := some rt, rd := some rd, imm := none
          ctrl := ⟨true, false, false, false, false, false, true, .add⟩
          instr := encode (.add rd rs rt), pc := a } ∧
      (s.Inv → s.arch.pc = some a →
        t.arch.pc = some (a + 4) ∧ t.arch.dmem = s.arch.dmem ∧
        ∀ r, t.arch.x.read r =
          if r = rd ∧ rd ≠ 0 then s.arch.x.read rs + s.arch.x.read rt else s.arch.x.read r)

/-- The effect and control vector of R121. As the model has it, the cycle is the one with the instruction in Decode
(log entry 1, the model's choice), and the effect is stated on the architectural view (log entry 12, an inference of
the model's). -/
def Obligations.SubCompletes : Prop :=
  ∀ (rd rs rt : Reg) (a : Word) (s : State), s.decoding (.sub rd rs rt) a →
    ∃ t, exec (.sub rd rs rt) s = .next t ∧
      t.idEx = some
        { op := .sub, rs := some rs, rt := some rt, rd := some rd, imm := none
          ctrl := ⟨true, false, false, false, false, false, true, .sub⟩
          instr := encode (.sub rd rs rt), pc := a } ∧
      (s.Inv → s.arch.pc = some a →
        t.arch.pc = some (a + 4) ∧ t.arch.dmem = s.arch.dmem ∧
        ∀ r, t.arch.x.read r =
          if r = rd ∧ rd ≠ 0 then s.arch.x.read rs - s.arch.x.read rt else s.arch.x.read r)

/-- The effect and control vector of R122. As the model has it, the cycle is the one with the instruction in Decode
(log entry 1, the model's choice), and the effect is stated on the architectural view (log entry 12, an inference of
the model's). -/
def Obligations.AddiCompletes : Prop :=
  ∀ (rt rs : Reg) (imm : Int) (a : Word) (s : State), imm16Ok imm = true → s.decoding (.addi rt rs imm) a →
    ∃ t, exec (.addi rt rs imm) s = .next t ∧
      t.idEx = some
        { op := .addi, rs := some rs, rt := some rt, rd := none, imm := some (BitVec.ofInt 32 imm)
          ctrl := ⟨true, false, false, false, false, true, false, .add⟩
          instr := encode (.addi rt rs imm), pc := a } ∧
      (s.Inv → s.arch.pc = some a →
        t.arch.pc = some (a + 4) ∧ t.arch.dmem = s.arch.dmem ∧
        ∀ r, t.arch.x.read r =
          if r = rt ∧ rt ≠ 0 then s.arch.x.read rs + BitVec.ofInt 32 imm else s.arch.x.read r)

/-- The effect and control vector of R123, whose effect the spec marks as an inference ("derived: from
40_decoder_alu_control.md rule R104 and rule R105"). As the model has it, the cycle is the one with the instruction in
Decode (log entry 1, the model's choice), and the effect is stated on the architectural view (log entry 12, an
inference of the model's). -/
def Obligations.SubiCompletes : Prop :=
  ∀ (rt rs : Reg) (imm : Int) (a : Word) (s : State), imm16Ok imm = true → s.decoding (.subi rt rs imm) a →
    ∃ t, exec (.subi rt rs imm) s = .next t ∧
      t.idEx = some
        { op := .subi, rs := some rs, rt := some rt, rd := none, imm := some (BitVec.ofInt 32 imm)
          ctrl := ⟨true, false, false, false, false, true, false, .sub⟩
          instr := encode (.subi rt rs imm), pc := a } ∧
      (s.Inv → s.arch.pc = some a →
        t.arch.pc = some (a + 4) ∧ t.arch.dmem = s.arch.dmem ∧
        ∀ r, t.arch.x.read r =
          if r = rt ∧ rt ≠ 0 then s.arch.x.read rs - BitVec.ofInt 32 imm else s.arch.x.read r)

/-- The effect and control vector of R130. As the model has it, the cycle is the one with the instruction in Decode
(log entry 1, the model's choice), and the effect is stated on the architectural view (log entry 12, an inference of
the model's). -/
def Obligations.LwCompletes : Prop :=
  ∀ (rt rs : Reg) (imm : Int) (a : Word) (s : State), imm16Ok imm = true → s.decoding (.lw rt imm rs) a →
    ∃ t, exec (.lw rt imm rs) s = .next t ∧
      t.idEx = some
        { op := .lw, rs := some rs, rt := some rt, rd := none, imm := some (BitVec.ofInt 32 imm)
          ctrl := ⟨true, true, false, false, false, true, false, .add⟩
          instr := encode (.lw rt imm rs), pc := a } ∧
      (s.Inv → s.arch.pc = some a →
        t.arch.pc = some (a + 4) ∧ t.arch.dmem = s.arch.dmem ∧
        ∀ r, t.arch.x.read r =
          if r = rt ∧ rt ≠ 0 then s.arch.dmem.read (s.arch.x.read rs + BitVec.ofInt 32 imm)
          else s.arch.x.read r)

/-- The effect and control vector of R131. As the model has it, the cycle is the one with the instruction in Decode
(log entry 1, the model's choice), and the effect is stated on the architectural view (log entry 12, an inference of
the model's). -/
def Obligations.SwCompletes : Prop :=
  ∀ (rt rs : Reg) (imm : Int) (a : Word) (s : State), imm16Ok imm = true → s.decoding (.sw rt imm rs) a →
    ∃ t, exec (.sw rt imm rs) s = .next t ∧
      t.idEx = some
        { op := .sw, rs := some rs, rt := some rt, rd := none, imm := some (BitVec.ofInt 32 imm)
          ctrl := ⟨false, false, true, false, false, true, false, .add⟩
          instr := encode (.sw rt imm rs), pc := a } ∧
      (s.Inv → s.arch.pc = some a →
        t.arch.pc = some (a + 4) ∧ (∀ r, t.arch.x.read r = s.arch.x.read r) ∧
        ∀ b, t.arch.dmem.read b =
          if b = s.arch.x.read rs + BitVec.ofInt 32 imm then s.arch.x.read rt else s.arch.dmem.read b)

/-- The effect and control vector of R140, with R206: Decode of a `beq` fetches nothing; its effect is the next
address alone. As the model has it, the cycle is the one with the instruction in Decode (log entry 1, the model's
choice), and the effect is stated on the architectural view (log entry 12, an inference of the model's). -/
def Obligations.BeqCompletes : Prop :=
  ∀ (rs rt : Reg) (imm : Int) (a : Word) (s : State), imm16Ok imm = true → s.decoding (.beq rs rt imm) a →
    ∃ t, exec (.beq rs rt imm) s = .next t ∧
      t.idEx = some
        { op := .beq, rs := some rs, rt := some rt, rd := none, imm := some (BitVec.ofInt 32 imm)
          ctrl := ⟨false, false, false, true, false, false, false, .sub⟩
          instr := encode (.beq rs rt imm), pc := a } ∧
      t.ifId = none ∧ t.stats.stallCycles = s.stats.stallCycles + 1 ∧ t.stats.loadStalls = s.stats.loadStalls ∧
      (s.Inv → t.pc = a + 4) ∧
      (s.Inv → s.arch.pc = some a →
        t.arch.x = s.arch.x ∧ t.arch.dmem = s.arch.dmem ∧
        t.arch.pc = some
          (if s.arch.x.read rs = s.arch.x.read rt then a + 4 + BitVec.ofInt 32 imm * 4 else a + 4))

/-- The effect and control vector of R141, with R206. As the model has it, the cycle is the one with the instruction
in Decode (log entry 1, the model's choice), and the effect is stated on the architectural view (log entry 12, an
inference of the model's). -/
def Obligations.JCompletes : Prop :=
  ∀ (imm : Int) (a : Word) (s : State), idx26Ok imm = true → s.decoding (.j imm) a →
    ∃ t, exec (.j imm) s = .next t ∧
      t.idEx = some
        { op := .j, rs := none, rt := none, rd := none, imm := some (BitVec.ofInt 32 imm)
          ctrl := ⟨false, false, false, false, true, false, false, .add⟩
          instr := encode (.j imm), pc := a } ∧
      t.ifId = none ∧ t.stats.stallCycles = s.stats.stallCycles + 1 ∧ t.stats.loadStalls = s.stats.loadStalls ∧
      (s.Inv → t.pc = a + 4) ∧
      (s.Inv → s.arch.pc = some a →
        t.arch.x = s.arch.x ∧ t.arch.dmem = s.arch.dmem ∧ t.arch.pc = some (BitVec.ofInt 32 imm * 4))

/-- The effect and control vector of R150: the run ends, no register and no memory cell changes. As the model has it,
the cycle is the one with the instruction in Decode (log entry 1, the model's choice), and the effect is stated on the
architectural view (log entry 12, an inference of the model's). -/
def Obligations.HaltCompletes : Prop :=
  ∀ (a : Word) (s : State), s.decoding .halt a →
    ∃ t, exec .halt s = .next t ∧
      t.idEx = some
        { op := .halt, rs := none, rt := none, rd := none, imm := none
          ctrl := ⟨false, false, false, false, false, false, false, .add⟩
          instr := encode .halt, pc := a } ∧
      t.stats.stallCycles = s.stats.stallCycles ∧
      (s.Inv → s.arch.pc = some a → t.arch.x = s.arch.x ∧ t.arch.dmem = s.arch.dmem ∧ t.arch.pc = none)

/-- The frame of every instruction's cycle (R22, R52, R55, R185): no register changes but the destination of the
instruction Writeback retires, no cell but the one the store performed in this cycle writes, no instruction word, and
no latency input without a draw. The cycle of an instruction is the one with it in Decode (log entry 1). For a halted
or faulted machine this rests on log entry 6, the model's choice. -/
def Obligations.ExecFrame : Prop :=
  ∀ (i : Instr) (s t : State), exec i s = .next t →
    t.imem = s.imem ∧
    (∀ r : Reg, (¬ ∃ w, s.memWb = some w ∧ w.ctrl.regWrite = true ∧ w.dest = some r ∧ r ≠ 0) →
      t.x.read r = s.x.read r) ∧
    (∀ b : Word, (¬ ∃ e, s.exMem = some e ∧ s.memCyclesLeft = 0 ∧ e.ctrl.memWrite = true ∧ b = e.aluResult) →
      t.dmem.read b = s.dmem.read b) ∧
    ((¬ ∃ d, s.idEx = some d ∧ (d.ctrl.memRead = true ∨ d.ctrl.memWrite = true)) →
      t.latencyInputs = s.latencyInputs ∧ t.drawsTaken = s.drawsTaken)

/-- R165, R167: where a memory wait or a load-use hazard holds it in IF_ID, an instruction waits with none of its
effect: it stays in IF_ID, `pc` does not move and the architectural state (log entry 12) does not change. -/
def Obligations.HeldInstructionHasNoEffect : Prop :=
  ∀ (i : Instr) (a : Word) (s : State), i.wellFormed = true → s.Inv → s.runState = .running →
    s.ifId = some { instr := encode i, pc := a } → s.idRun (microOp i) = false →
    ∃ t, exec i s = .next t ∧ t.ifId = s.ifId ∧ t.pc = s.pc ∧ t.arch = s.arch

/-- R72, 93 U16: an instruction that is not well-formed is malformed: the cycle in which Decode runs on it raises the
fault with the word and address in IF_ID (log entry 4). -/
def Obligations.IllFormedRaisesMalformed : Prop :=
  ∀ (i : Instr) (f : IfId) (s : State), i.wellFormed = false → s.runState = .running → s.memWait = false →
    s.ifId = some f → exec i s = .fault (.malformedInstruction f.instr f.pc)

/-- R232: no register value, address or result makes a well-formed instruction raise anything. It holds in every
state: that `exec` is the cycle with the instruction in Decode is the model's choice (log entry 1), and so is that a
halted or faulted machine, in which R35 and R160 take no cycle, answers its own state (log entry 6). -/
def Obligations.WellFormedNeverStops : Prop :=
  ∀ (i : Instr) (s : State), i.wellFormed = true → ∃ t, exec i s = .next t

/-! ### The step and the decoder -/

/-- R100, R166, R188: a step runs the instruction that the word in IF_ID decodes to; nothing stands around it. That
`exec` is the cycle with the instruction in Decode is the model's choice (log entry 1). -/
def Obligations.StepRunsDecoded : Prop :=
  ∀ (s : State) (f : IfId) (i : Instr), s.ifId = some f → decodeWord f.instr = .ok i →
    i.wellFormed = true ∧ step s = exec i s

/-- R163, R164, R251: the word at `pc` is fetched into IF_ID, and the step after that is `exec` of its instruction.
That `exec` is the cycle that has the instruction in IF_ID before Decode is the model's choice (log entry 1). In that
cycle Decode takes the instruction only where no stall holds it (R251: "With no stalls"): the hypotheses allow an `lw`
or `sw` in ID_EX, and behind one that `exec` can be a cycle that holds it. -/
def Obligations.WordAtPcIsFetchedThenRun : Prop :=
  ∀ (i : Instr) (s : State), i.wellFormed = true → s.runState = .running → s.halting = false →
    s.memWait = false → s.ifId = none → s.redirect = none → s.imem.fetch s.pc = some (encode i) →
    ∃ t, step s = .next t ∧ t.ifId = some { instr := encode i, pc := s.pc } ∧ t.pc = s.pc + 4 ∧
      t.runState = .running ∧ step t = exec i t

/-- R107: the one fault, exactly when Decode runs on a malformed word. -/
def Obligations.MalformedFaultExactly : Prop :=
  ∀ (s : State) (r : Fault), step s = .fault r ↔
    s.runState = .running ∧ s.memWait = false ∧
    ∃ f, s.ifId = some f ∧ decodeWord f.instr = .error (.malformed f.instr) ∧
      r = .malformedInstruction f.instr f.pc

/-- R233: the fault wins over a `halt` that Writeback consumes in the same cycle. -/
def Obligations.FaultWinsOverHalt : Prop :=
  ∀ (s : State) (f : IfId) (w : MemWb), s.runState = .running → s.memWb = some w → w.op = .halt →
    s.memWait = false → s.ifId = some f → decodeWord f.instr = .error (.malformed f.instr) →
    step s = .fault (.malformedInstruction f.instr f.pc)

/-- R35: in `halted` and `faulted` no state changes. That a step answers there at all is the model's choice (log entry
6). -/
def Obligations.StoppedMachineStays : Prop :=
  ∀ s : State, s.runState ≠ .running → step s = .next s

/-! ### Stalls -/

/-- R202: a wait cycle; no draw is consumed in it. -/
def Obligations.MemoryWaitCycle : Prop :=
  ∀ (s : State) (e : ExMem), s.runState = .running → s.exMem = some e → 0 < s.memCyclesLeft →
    ∃ t, step s = .next t ∧ t.exMem = s.exMem ∧ t.idEx = s.idEx ∧ t.ifId = s.ifId ∧ t.pc = s.pc ∧
      t.memWb = none ∧ t.memCyclesLeft + 1 = s.memCyclesLeft ∧ t.dmem = s.dmem ∧
      (∀ r : Reg, t.x.read r = match s.memWb with
        | none => s.x.read r
        | some w => if w.ctrl.regWrite = true ∧ w.dest = some r ∧ r ≠ 0 then
            (if w.ctrl.memRead then w.memData else w.aluResult) else s.x.read r) ∧
      t.latencyInputs = s.latencyInputs ∧ t.drawsTaken = s.drawsTaken ∧
      t.stats.memWaitCycles = s.stats.memWaitCycles + 1 ∧ t.stats.stallCycles = s.stats.stallCycles ∧
      t.stats.loadStalls = s.stats.loadStalls ∧ t.stats.branchesTaken = s.stats.branchesTaken

/-- R203: the load-use signal is raised, and counted, exactly when its comparator says so: Execute runs on a load, and
the well-formed instruction in IF_ID has a present `rs` or `rt` equal to the load's destination. Register 0 is not
exempt. -/
def Obligations.LoadUseExactly : Prop :=
  ∀ s t : State, s.runState = .running → step s = .next t →
    (s.loadUse s.inDecode = true ↔
      s.memWait = false ∧ ∃ i f m d, s.idEx = some i ∧ i.ctrl.memRead = true ∧ i.dest = some d ∧
        s.ifId = some f ∧ microOpOfWord f.instr = some m ∧ (m.rs = some d ∨ m.rt = some d)) ∧
    (t.stats.loadStalls = s.stats.loadStalls + 1 ↔ s.loadUse s.inDecode = true)

/-- R205: a load-stall cycle holds IF_ID and `pc`, puts a bubble into ID_EX, and lets the load go on. -/
def Obligations.LoadStallCycle : Prop :=
  ∀ (s : State) (i : IdEx) (f : IfId) (m : MicroOp) (d : Reg), s.runState = .running → s.memWait = false →
    s.idEx = some i → i.ctrl = controlOf .lw → i.dest = some d → s.ifId = some f →
    microOpOfWord f.instr = some m → (m.rs = some d ∨ m.rt = some d) →
    ∃ t, step s = .next t ∧ t.idEx = none ∧ t.ifId = s.ifId ∧ t.pc = s.pc ∧
      (∃ e, t.exMem = some e ∧ e.instr = i.instr ∧ e.pc = i.pc ∧ e.op = i.op ∧ e.ctrl = i.ctrl ∧ e.dest = some d) ∧
      (t.memCyclesLeft = 2 ∨ t.memCyclesLeft = 3) ∧
      t.stats.stallCycles = s.stats.stallCycles + 1 ∧ t.stats.loadStalls = s.stats.loadStalls + 1

/-! ### Stages -/

/-- R163: Fetch, when it runs, from the fetch address of R164. -/
def Obligations.FetchWhenItRuns : Prop :=
  ∀ s t : State, s.runState = .running → step s = .next t → s.ifRun s.inDecode = true →
    (∀ w, s.imem.fetch (s.redirect.getD s.pc) = some w →
      t.ifId = some { instr := w, pc := s.redirect.getD s.pc } ∧ t.pc = s.redirect.getD s.pc + 4) ∧
    (s.imem.fetch (s.redirect.getD s.pc) = none → t.ifId = none ∧ t.pc = s.redirect.getD s.pc)

/-- R171, R172: the value of an operand: the bypass from EX_MEM first, then the write-through from MEM_WB, then the
register file; register 0 by neither. -/
def Obligations.OperandBypassAndWriteThrough : Prop :=
  ∀ (s : State) (r : Reg),
    (∀ e, s.exMem = some e → r ≠ 0 → e.ctrl.regWrite = true → e.ctrl.memRead = false → e.dest = some r →
      s.operand r = e.aluResult) ∧
    ((¬ ∃ e, s.exMem = some e ∧ r ≠ 0 ∧ e.ctrl.regWrite = true ∧ e.ctrl.memRead = false ∧ e.dest = some r) →
      (∀ w, s.memWb = some w → r ≠ 0 → w.ctrl.regWrite = true → w.dest = some r →
        s.operand r = if w.ctrl.memRead then w.memData else w.aluResult) ∧
      ((¬ ∃ w, s.memWb = some w ∧ r ≠ 0 ∧ w.ctrl.regWrite = true ∧ w.dest = some r) → s.operand r = s.x.read r))

/-- R170, R173: what Execute leaves in EX_MEM, with the operand values of R172. -/
def Obligations.ExecuteFillsExMem : Prop :=
  ∀ (s t : State) (i : IdEx), s.runState = .running → s.memWait = false → s.idEx = some i → step s = .next t →
    ∃ rsVal rtVal op2 : Word,
      rsVal = (match i.rs with | some r => s.operand r | none => 0) ∧
      rtVal = (match i.rt with | some r => s.operand r | none => 0) ∧
      (i.ctrl.aluSrc = true → ∀ v, i.imm = some v → op2 = v) ∧ (i.ctrl.aluSrc = false → op2 = rtVal) ∧
      t.exMem = some
        { instr := i.instr, pc := i.pc, op := i.op, ctrl := i.ctrl
          aluResult := (match i.ctrl.aluOp with | .add => rsVal + op2 | .sub => rsVal - op2)
          storeValue := rtVal
          dest := (match i.rd with | some d => some d | none => i.rt) }

/-- R174: in the cycle a `beq` executes it is resolved on the operand values of R172, and the resolved address is
fetched; a taken one is counted. -/
def Obligations.BranchResolves : Prop :=
  ∀ (s t : State) (i : IdEx) (a b : Reg) (v target : Word), s.Inv → s.runState = .running → s.memWait = false →
    s.idEx = some i → i.op = .beq → i.rs = some a → i.rt = some b → i.imm = some v → step s = .next t →
    target = (if s.operand a = s.operand b then i.pc + 4 + v * 4 else i.pc + 4) →
    (∀ w, s.imem.fetch target = some w → t.ifId = some { instr := w, pc := target } ∧ t.pc = target + 4) ∧
    (s.imem.fetch target = none → t.ifId = none ∧ t.pc = target) ∧
    t.stats.branchesTaken = s.stats.branchesTaken + (if s.operand a = s.operand b then 1 else 0)

/-- R175: in the cycle a `j` executes its target is fetched; it is not counted as a branch taken. -/
def Obligations.JumpResolves : Prop :=
  ∀ (s t : State) (i : IdEx) (v : Word), s.Inv → s.runState = .running → s.memWait = false →
    s.idEx = some i → i.op = .j → i.imm = some v → step s = .next t →
    (∀ w, s.imem.fetch (v * 4) = some w → t.ifId = some { instr := w, pc := v * 4 } ∧ t.pc = v * 4 + 4) ∧
    (s.imem.fetch (v * 4) = none → t.ifId = none ∧ t.pc = v * 4) ∧
    t.stats.branchesTaken = s.stats.branchesTaken

/-- R176: an executed `lw` or `sw` consumes exactly one draw, a value of {2, 3}, the supplied one where one is supplied;
anything else consumes none and leaves the counter 0. It holds for every value of the free draw (log entry 5). -/
def Obligations.LatencyDrawnOncePerMemoryOp : Prop :=
  ∀ s t : State, s.runState = .running → s.memWait = false → step s = .next t →
    ((∃ i, s.idEx = some i ∧ (i.ctrl.memRead = true ∨ i.ctrl.memWrite = true)) →
      (t.memCyclesLeft = 2 ∨ t.memCyclesLeft = 3) ∧ t.drawsTaken = s.drawsTaken + 1 ∧
      t.latencyInputs = s.latencyInputs.tail ∧
      ∀ l rest, s.latencyInputs = l :: rest → t.memCyclesLeft = l.cycles) ∧
    ((¬ ∃ i, s.idEx = some i ∧ (i.ctrl.memRead = true ∨ i.ctrl.memWrite = true)) →
      t.memCyclesLeft = 0 ∧ t.drawsTaken = s.drawsTaken ∧ t.latencyInputs = s.latencyInputs)

/-- R180, R182: the Memory stage with nothing to do, and its perform cycle. -/
def Obligations.MemoryStagePerforms : Prop :=
  ∀ s t : State, s.runState = .running → step s = .next t →
    (s.exMem = none → t.memWb = none ∧ t.dmem = s.dmem) ∧
    (∀ e, s.exMem = some e → s.memCyclesLeft = 0 →
      t.memWb = some
        { instr := e.instr, pc := e.pc, op := e.op, ctrl := e.ctrl, aluResult := e.aluResult
          memData := (if e.ctrl.memRead then s.dmem.read e.aluResult else 0), dest := e.dest } ∧
      ∀ b, t.dmem.read b = if e.ctrl.memWrite = true ∧ b = e.aluResult then e.storeValue else s.dmem.read b)

/-- R185, R22: Writeback writes the result of the occupant of MEM_WB, never register 0, and no other register. -/
def Obligations.WritebackWritesDestination : Prop :=
  ∀ s t : State, s.runState = .running → step s = .next t →
    (s.memWb = none → ∀ r, t.x.read r = s.x.read r) ∧
    (∀ w, s.memWb = some w → ∀ r : Reg, t.x.read r =
      if w.ctrl.regWrite = true ∧ w.dest = some r ∧ r ≠ 0 then (if w.ctrl.memRead then w.memData else w.aluResult)
      else s.x.read r)

/-- R151, R187: the run ends in the cycle in which Writeback consumes `halt`, and in no other. -/
def Obligations.RunEndsWhenHaltRetires : Prop :=
  ∀ s t : State, s.runState = .running → step s = .next t →
    ((∃ w, s.memWb = some w ∧ w.op = .halt) → t.runState = .halted) ∧
    ((¬ ∃ w, s.memWb = some w ∧ w.op = .halt) → t.runState = .running)

/-- R212: the six counters follow their events. -/
def Obligations.CountersFollowEvents : Prop :=
  ∀ s t : State, s.runState = .running → step s = .next t →
    t.stats.totalCycles = s.stats.totalCycles + 1 ∧
    t.stats.instructionsRetired = s.stats.instructionsRetired +
      (match s.memWb with | some w => if w.op = .halt then 0 else 1 | none => 0) ∧
    t.stats.stallCycles = s.stats.stallCycles +
      (if s.loadUse s.inDecode = true ∨ s.branchStall s.inDecode = true then 1 else 0) ∧
    t.stats.loadStalls = s.stats.loadStalls + (if s.loadUse s.inDecode = true then 1 else 0) ∧
    t.stats.branchesTaken = s.stats.branchesTaken +
      (match s.idEx with
        | some i =>
          if s.memWait = false ∧ i.ctrl.branch = true ∧ s.operandOrZero i.rs = s.operandOrZero i.rt then 1 else 0
        | none => 0) ∧
    t.stats.memWaitCycles = s.stats.memWaitCycles + (if s.memWait = true then 1 else 0)

/-- R210: the controller state; at most one of the three stall signals is true. -/
def Obligations.ControllerClassifiesCycle : Prop :=
  ∀ s t : State, s.runState = .running → step s = .next t →
    (s.halting = true → t.ctrlState = .halted) ∧
    (s.halting = false → s.memWait = true → t.ctrlState = .memWait) ∧
    (s.halting = false → s.loadUse s.inDecode = true → t.ctrlState = .loadStall) ∧
    (s.halting = false → s.branchStall s.inDecode = true → t.ctrlState = .branchStall) ∧
    (s.halting = false → s.memWait = false → s.loadUse s.inDecode = false → s.branchStall s.inDecode = false →
      t.ctrlState = .running) ∧
    ¬ (s.memWait = true ∧ s.loadUse s.inDecode = true) ∧
    ¬ (s.memWait = true ∧ s.branchStall s.inDecode = true) ∧
    ¬ (s.loadUse s.inDecode = true ∧ s.branchStall s.inDecode = true)

/-- R50, R52 (marked derived): no step changes the instruction store. For a halted or faulted machine this rests on
log entry 6, the model's choice. -/
def Obligations.InstructionStoreConstant : Prop :=
  ∀ s t : State, step s = .next t → t.imem = s.imem

/-- R190 (marked derived): after the program has run off with nothing in flight, a cycle changes `total_cycles` and no
more (the report of the controller is RUNNING, and an idle latency counter is 0). -/
def Obligations.RunOffProgramOnlyCountsCycles : Prop :=
  ∀ s : State, s.runState = .running → s.drained = true → s.imem.fetch s.pc = none →
    step s = .next { s with
      stats := { s.stats with totalCycles := s.stats.totalCycles + 1 }
      ctrlState := .running
      memCyclesLeft := 0 }

/-! ### Reset and launch -/

/-- R44, R250: the reset state. That no instruction address is present and that no latency is supplied are the model's
choices (log entries 3 and 5). -/
def Obligations.ResetState : Prop :=
  State.reset.pc = 0 ∧ (∀ r : Reg, State.reset.x.read r = 0) ∧ (∀ a : Word, State.reset.dmem.read a = 0) ∧
  State.reset.ifId = none ∧ State.reset.idEx = none ∧ State.reset.exMem = none ∧ State.reset.memWb = none ∧
  State.reset.memCyclesLeft = 0 ∧ State.reset.runState = .running ∧ State.reset.ctrlState = .running ∧
  State.reset.stats = ⟨0, 0, 0, 0, 0, 0⟩ ∧ (∀ a : Word, State.reset.imem.fetch a = none) ∧
  State.reset.latencyInputs = []

/-- R44, R252, 93 U9: a launch starts in the reset state with its parameters, and one with RF0[0] not 0 is refused. -/
def Obligations.LaunchStartsInResetState : Prop :=
  ∀ l : Launch,
    (l.rf0.read 0 ≠ 0 → l.start = none) ∧
    ∀ s, l.start = some s →
      s.pc = l.resetPc ∧ s.x.read 0 = 0 ∧ (∀ r : Reg, s.x.read r = l.rf0.read r) ∧
      (∀ a : Word, s.dmem.read a = l.dmem0.read a) ∧ (∀ a : Word, s.imem.fetch a = l.imem.fetch a) ∧
      s.ifId = none ∧ s.idEx = none ∧ s.exMem = none ∧ s.memWb = none ∧ s.memCyclesLeft = 0 ∧
      s.runState = .running ∧ s.ctrlState = .running ∧ s.stats = ⟨0, 0, 0, 0, 0, 0⟩

/-- R84: the instruction on line `k` is placed at address `4 × k`, and nothing is placed elsewhere. -/
def Obligations.ProgramPlacedAtMultiplesOfFour : Prop :=
  ∀ (p : List Instr) (m : InstrStore), placeProgram p = some m → 4 * p.length ≤ 2 ^ 32 →
    m.wf = true ∧
    (∀ (k : Nat) (i : Instr), p[k]? = some i → m.fetch (BitVec.ofNat 32 (4 * k)) = some (encode i)) ∧
    (∀ a : Word, 4 * p.length ≤ a.toNat → m.fetch a = none)

/-- R86, R81: the resolved operand of a `beq` or a `j` leads back to the label's address. -/
def Obligations.ResolvedLabelsLeadToTarget : Prop :=
  ∀ target here : Int,
    ((target - here) % 4 = 0 →
      branchTarget (BitVec.ofInt 32 here) (BitVec.ofInt 32 (branchOffset target here)) = BitVec.ofInt 32 target) ∧
    (target % 4 = 0 → jumpTarget (BitVec.ofInt 32 (jumpIndex target)) = BitVec.ofInt 32 target)

/-! ### Invariants -/

/-- The invariant of the machine holds at the start of every run (R44, R45, R46, R47). -/
def Obligations.InvariantAtLaunch : Prop :=
  State.reset.Inv ∧ ∀ (l : Launch) (s : State), l.start = some s → s.Inv

/-- Every step keeps the invariant of the machine. For a halted or faulted machine this rests on log entry 6, the
model's choice. -/
def Obligations.InvariantKept : Prop :=
  ∀ s t : State, s.Inv → step s = .next t → t.Inv

/-- R23 (marked derived): for all programs, after any number of cycles, register 0 holds 0. For cycles counted after
the run has ended this rests on log entry 6, the model's choice. -/
def Obligations.ZeroRegisterAlways : Prop :=
  ∀ (l : Launch) (s t : State) (k : Nat), l.start = some s → runFor k s = .next t → t.x.read 0 = 0

/-- R26 (marked derived): `pc` is a multiple of 4 at every cycle. For cycles counted after the run has ended this
rests on log entry 6, the model's choice. -/
def Obligations.PcAlwaysAligned : Prop :=
  ∀ (l : Launch) (s t : State) (k : Nat), l.start = some s → runFor k s = .next t → t.pc.toNat % 4 = 0

/-- R45 (marked derived): the latency counter is 0 unless a memory operation is in EX_MEM. For cycles counted after
the run has ended this rests on log entry 6, the model's choice. -/
def Obligations.IdleLatencyCounter : Prop :=
  ∀ (l : Launch) (s t : State) (k : Nat), l.start = some s → runFor k s = .next t →
    (t.exMem = none ∨ ∃ e, t.exMem = some e ∧ e.op ≠ .lw ∧ e.op ≠ .sw) → t.memCyclesLeft = 0

/-- R46 (marked derived): behind a `beq` or `j` in ID_EX, IF_ID is empty. For cycles counted after the run has ended
this rests on log entry 6, the model's choice. -/
def Obligations.NothingFetchedBehindTransfer : Prop :=
  ∀ (l : Launch) (s t : State) (k : Nat) (i : IdEx), l.start = some s → runFor k s = .next t →
    t.idEx = some i → (i.op = .beq ∨ i.op = .j) → t.ifId = none

/-- R47 (marked derived): behind a load in EX_MEM, when Execute runs, no instruction in ID_EX has its destination as a
present source. For cycles counted after the run has ended this rests on log entry 6, the model's choice. -/
def Obligations.LoadNeverNeedsBypass : Prop :=
  ∀ (l : Launch) (s t : State) (k : Nat) (e : ExMem) (i : IdEx) (d : Reg), l.start = some s →
    runFor k s = .next t → t.exMem = some e → e.op = .lw → e.dest = some d → t.memWait = false →
    t.idEx = some i → i.rs ≠ some d ∧ i.rt ≠ some d

/-! ### The pipeline and the sequential machine -/

/-- The architectural view of a drained machine is its own registers, data store and `pc`; that of a halted machine its
own registers and data store (log entry 12). -/
def Obligations.ArchOfDrainedMachine : Prop :=
  ∀ s : State,
    (s.runState = .running → s.drained = true → s.arch = { pc := some s.pc, x := s.x, dmem := s.dmem }) ∧
    (s.runState = .halted → s.arch = { pc := none, x := s.x, dmem := s.dmem })

/-- R189 (marked derived), one cycle of it: a cycle in which Decode takes an instruction advances the architectural
state by exactly that instruction's sequential effect, every other cycle leaves it (log entry 12). For a halted or
faulted machine this rests on log entry 6, the model's choice. -/
def Obligations.StepRefinesSequential : Prop :=
  ∀ s t : State, s.Inv → step s = .next t →
    (∀ f i, s.runState = .running → s.ifId = some f → decodeWord f.instr = .ok i → s.idRun s.inDecode = true →
      t.arch = s.arch.effect i ∧
      ∀ p, s.arch.pc = some p → p = f.pc ∧ s.arch.next s.imem = some t.arch) ∧
    ((s.runState ≠ .running ∨ s.ifId = none ∨ s.idRun s.inDecode = false) → t.arch = s.arch)

/-- R153 (marked derived): once `halt` is past Decode, no younger instruction has an effect on the registers or the
data store the run ends with (log entry 12). For cycles counted after the run has ended this rests on log entry 6, the
model's choice. -/
def Obligations.NothingAfterHaltHasEffect : Prop :=
  ∀ (s t : State) (k : Nat), s.Inv → s.arch.pc = none → runFor k s = .next t → t.runState = .halted →
    t.x = s.arch.x ∧ t.dmem = s.arch.dmem

/-- R189 (marked derived), R258: a run that ends in `halted` ends with the registers and the data store of the
sequential machine, and has counted its instructions. For cycles counted after the run has ended this rests on log
entry 6, the model's choice. -/
def Obligations.HaltedRunIsSequential : Prop :=
  ∀ (l : Launch) (s t : State) (k : Nat), l.start = some s → runFor k s = .next t → t.runState = .halted →
    ∃ n b, Arch.haltsAfter l.imem n l.arch b ∧ t.x = b.x ∧ t.dmem = b.dmem ∧ t.stats.instructionsRetired = n

/-- R189 (marked derived): if the sequential machine reaches `halt` after `n` instructions and the pipeline meets no
malformed word, the pipeline halts with the same registers and data store and has retired `n`, whatever the draws. For
cycles counted after the run has ended this rests on log entry 6, the model's choice. -/
def Obligations.PipelineReachesSequentialHalt : Prop :=
  ∀ (l : Launch) (s : State) (n : Nat) (b : Arch), l.start = some s → Arch.haltsAfter l.imem n l.arch b →
    (∀ k r, runFor k s ≠ .fault r) →
    ∃ k t, runFor k s = .next t ∧ t.runState = .halted ∧ t.x = b.x ∧ t.dmem = b.dmem ∧
      t.stats.instructionsRetired = n

/-- R64 (marked derived): the latency draws do not change the registers, the data store or the retired count of a run.
For cycles counted after the run has ended this rests on log entry 6, the model's choice. -/
def Obligations.LatencyNeverChangesResult : Prop :=
  ∀ (l l' : Launch) (s s' t t' : State) (k k' : Nat), l.imem = l'.imem → l.dmem0 = l'.dmem0 → l.rf0 = l'.rf0 →
    l.resetPc = l'.resetPc → l.start = some s → l'.start = some s' →
    runFor k s = .next t → runFor k' s' = .next t' → t.runState = .halted → t'.runState = .halted →
    t.x = t'.x ∧ t.dmem = t'.dmem ∧ t.stats.instructionsRetired = t'.stats.instructionsRetired

/-- R160, R161 (marked derived): evaluating the stages in place in reverse order gives the same S' as the synchronous
reading. For a halted or faulted machine this rests on log entry 6, the model's choice. -/
def Obligations.InPlaceOrderGivesSameCycle : Prop :=
  ∀ (y : Option MicroOp) (s : State), cycleInPlace y s = cycle y s

/-! ### Paths through an otherwise empty pipeline -/

/-- R125 (marked derived): an arithmetic instruction decoded with nothing older in the pipeline retires in the third
cycle after that, and its result is in its destination. -/
def Obligations.ArithmeticPath : Prop :=
  (∀ (rd rs rt : Reg) (a : Word) (s u : State), s.decoding (.add rd rs rt) a → s.quiet = true →
    runFor 4 s = .next u →
    u.stats.instructionsRetired = s.stats.instructionsRetired + 1 ∧
    ∀ r, u.x.read r = if r = rd ∧ rd ≠ 0 then s.x.read rs + s.x.read rt else s.x.read r) ∧
  (∀ (rd rs rt : Reg) (a : Word) (s u : State), s.decoding (.sub rd rs rt) a → s.quiet = true →
    runFor 4 s = .next u →
    u.stats.instructionsRetired = s.stats.instructionsRetired + 1 ∧
    ∀ r, u.x.read r = if r = rd ∧ rd ≠ 0 then s.x.read rs - s.x.read rt else s.x.read r) ∧
  (∀ (rt rs : Reg) (imm : Int) (a : Word) (s u : State), imm16Ok imm = true → s.decoding (.addi rt rs imm) a →
    s.quiet = true → runFor 4 s = .next u →
    u.stats.instructionsRetired = s.stats.instructionsRetired + 1 ∧
    ∀ r, u.x.read r = if r = rt ∧ rt ≠ 0 then s.x.read rs + BitVec.ofInt 32 imm else s.x.read r) ∧
  (∀ (rt rs : Reg) (imm : Int) (a : Word) (s u : State), imm16Ok imm = true → s.decoding (.subi rt rs imm) a →
    s.quiet = true → runFor 4 s = .next u →
    u.stats.instructionsRetired = s.stats.instructionsRetired + 1 ∧
    ∀ r, u.x.read r = if r = rt ∧ rt ≠ 0 then s.x.read rs - BitVec.ofInt 32 imm else s.x.read r)

/-- R132 (marked derived), with the effect of R130: an `lw` decoded with nothing older in the pipeline and draw `L`
executes in the next cycle, waits `L` cycles, performs, and has its value in its destination one cycle later. -/
def Obligations.LoadPath : Prop :=
  ∀ (rt rs : Reg) (imm : Int) (a : Word) (s u : State), imm16Ok imm = true → s.decoding (.lw rt imm rs) a →
    s.quiet = true → runFor (4 + s.draw.cycles) s = .next u →
    u.stats.instructionsRetired = s.stats.instructionsRetired + 1 ∧
    ∀ r, u.x.read r =
      if r = rt ∧ rt ≠ 0 then s.dmem.read (s.x.read rs + BitVec.ofInt 32 imm) else s.x.read r

/-- R132 (marked derived), with the effect of R131: an `sw` decoded with nothing older in the pipeline and draw `L`
writes its cell in the perform cycle, the cycle after `L` wait cycles, and not before. -/
def Obligations.StorePath : Prop :=
  ∀ (rt rs : Reg) (imm : Int) (a : Word) (s u : State), imm16Ok imm = true → s.decoding (.sw rt imm rs) a →
    s.quiet = true →
    (runFor (2 + s.draw.cycles) s = .next u → u.dmem = s.dmem) ∧
    (runFor (3 + s.draw.cycles) s = .next u →
      ∀ b, u.dmem.read b = if b = s.x.read rs + BitVec.ofInt 32 imm then s.x.read rt else s.dmem.read b)

/-- R150, R151: a `halt` decoded with nothing older in the pipeline ends the run in the third cycle after that; no
register and no memory cell has changed and `halt` is not counted as retired. -/
def Obligations.HaltPath : Prop :=
  ∀ (a : Word) (s u : State), s.decoding .halt a → s.quiet = true → runFor 4 s = .next u →
    u.runState = .halted ∧ u.x = s.x ∧ u.dmem = s.dmem ∧
    u.stats.totalCycles = s.stats.totalCycles + 4 ∧
    u.stats.instructionsRetired = s.stats.instructionsRetired
end

