-- ==== Sys2Proof/Laws/Memory.lean ====
section
/-! SUPPORT. The laws of the two stores and of the register file: a read after a write, and that every operation keeps
the canonical form. -/

namespace Sys2Proof.Machine

/-! ### Sorted lists -/

theorem lookupAt_eraseAt (a b : Nat) (m : List (Nat × Word)) :
    lookupAt b (eraseAt a m) = if b = a then none else lookupAt b m := by
  induction m with
  | nil => simp [eraseAt, lookupAt]
  | cons p m ih =>
    by_cases h : p.1 = a
    · by_cases hb : b = a
      · subst hb
        simpa [eraseAt, h] using ih
      · have : ¬ a = b := fun e => hb e.symm
        simp [eraseAt, lookupAt, h, ih, hb, this]
    · by_cases hb : b = a
      · subst hb
        simp [eraseAt, lookupAt, h, ih]
      · simp [eraseAt, lookupAt, h, ih, hb]

theorem lookupAt_insertAt_self (a : Nat) (v : Word) (m : List (Nat × Word)) (h : lookupAt a m = none) :
    lookupAt a (insertAt a v m) = some v := by
  induction m with
  | nil => simp [insertAt, lookupAt]
  | cons p m ih =>
    by_cases hp : p.1 = a
    · simp [lookupAt, hp] at h
    · have h' : lookupAt a m = none := by simpa [lookupAt, hp] using h
      by_cases hl : a < p.1
      · simp [insertAt, hl, lookupAt]
      · simp [insertAt, hl, lookupAt, hp, ih h']

theorem lookupAt_insertAt_other {a b : Nat} (v : Word) (m : List (Nat × Word)) (h : b ≠ a) :
    lookupAt b (insertAt a v m) = lookupAt b m := by
  have h' : ¬ a = b := fun e => h e.symm
  induction m with
  | nil => simp [insertAt, lookupAt, h']
  | cons p m ih =>
    by_cases hl : a < p.1
    · simp [insertAt, hl, lookupAt, h']
    · simp [insertAt, hl, lookupAt, ih]

theorem risingFrom_mono {lo lo' : Nat} (m : List (Nat × Word)) (h : risingFrom lo m = true) (hl : lo' ≤ lo) :
    risingFrom lo' m = true := by
  cases m with
  | nil => rfl
  | cons p m =>
    simp only [risingFrom, Bool.and_eq_true, decide_eq_true_eq] at h ⊢
    exact ⟨le_trans hl h.1, h.2⟩

theorem risingFrom_eraseAt (a lo : Nat) (m : List (Nat × Word)) (h : risingFrom lo m = true) :
    risingFrom lo (eraseAt a m) = true := by
  induction m generalizing lo with
  | nil => simpa [eraseAt] using h
  | cons p m ih =>
    simp only [risingFrom, Bool.and_eq_true, decide_eq_true_eq] at h
    by_cases hp : p.1 = a
    · simp only [eraseAt, hp, if_true]
      exact risingFrom_mono _ (ih _ h.2) (by omega)
    · simp only [eraseAt, hp, if_false, risingFrom, Bool.and_eq_true, decide_eq_true_eq]
      exact ⟨h.1, ih _ h.2⟩

theorem risingFrom_insertAt (a lo : Nat) (v : Word) (m : List (Nat × Word)) (h : risingFrom lo m = true)
    (hl : lo ≤ a) (hn : lookupAt a m = none) : risingFrom lo (insertAt a v m) = true := by
  induction m generalizing lo with
  | nil => simp [insertAt, risingFrom, hl]
  | cons p m ih =>
    simp only [risingFrom, Bool.and_eq_true, decide_eq_true_eq] at h
    by_cases hp : p.1 = a
    · simp [lookupAt, hp] at hn
    · have hn' : lookupAt a m = none := by simpa [lookupAt, hp] using hn
      by_cases hlt : a < p.1
      · simp only [insertAt, hlt, if_true, risingFrom, Bool.and_eq_true, decide_eq_true_eq]
        exact ⟨hl, hlt, h.2⟩
      · simp only [insertAt, hlt, if_false, risingFrom, Bool.and_eq_true, decide_eq_true_eq]
        exact ⟨h.1, ih _ h.2 (by omega) hn'⟩

theorem all_eraseAt (f : Nat × Word → Bool) (a : Nat) (m : List (Nat × Word)) (h : m.all f = true) :
    (eraseAt a m).all f = true := by
  induction m with
  | nil => rfl
  | cons p m ih =>
    simp only [List.all_cons, Bool.and_eq_true] at h
    by_cases hp : p.1 = a
    · simp [eraseAt, hp, ih h.2]
    · simp [eraseAt, hp, ih h.2, h.1]

theorem all_insertAt (f : Nat × Word → Bool) (a : Nat) (v : Word) (m : List (Nat × Word)) (h : m.all f = true)
    (hf : f (a, v) = true) : (insertAt a v m).all f = true := by
  induction m with
  | nil => simp [insertAt, hf]
  | cons p m ih =>
    have h2 := h
    simp only [List.all_cons, Bool.and_eq_true] at h2
    by_cases hl : a < p.1
    · simp only [insertAt, hl, if_true, List.all_cons, Bool.and_eq_true]
      exact ⟨hf, h2⟩
    · simp only [insertAt, hl, if_false, List.all_cons, Bool.and_eq_true]
      exact ⟨h2.1, ih h2.2⟩

theorem all_of_lookupAt (f : Nat × Word → Bool) {a : Nat} {v : Word} (m : List (Nat × Word)) (h : m.all f = true)
    (hl : lookupAt a m = some v) : f (a, v) = true := by
  induction m with
  | nil => simp [lookupAt] at hl
  | cons p m ih =>
    simp only [List.all_cons, Bool.and_eq_true] at h
    by_cases hp : p.1 = a
    · simp only [lookupAt, hp, if_true, Option.some.injEq] at hl
      have : p = (a, v) := by rw [← hp, ← hl]
      rw [← this]; exact h.1
    · simp only [lookupAt, hp, if_false] at hl
      exact ih h.2 hl

/-! ### The data store -/

@[simp] theorem Memory.read_nil (a : Word) : Memory.read [] a = Memory.unlisted := rfl

/-- The read-after-write law of the data store, in every store, canonical or not (R55). -/
theorem Memory.read_write (m : Memory) (a b v : Word) :
    (m.write a v).read b = if b = a then v else m.read b := by
  by_cases hb : b = a
  · subst hb
    by_cases hv : v = Memory.unlisted
    · simp [Memory.read, Memory.write, hv, lookupAt_eraseAt]
    · simp [Memory.read, Memory.write, hv, lookupAt_insertAt_self, lookupAt_eraseAt]
  · have hn : b.toNat ≠ a.toNat := fun e => hb (BitVec.eq_of_toNat_eq e)
    by_cases hv : v = Memory.unlisted
    · simp [Memory.read, Memory.write, hv, lookupAt_eraseAt, hb, hn]
    · simp [Memory.read, Memory.write, hv, lookupAt_insertAt_other _ _ hn, lookupAt_eraseAt, hb, hn]

theorem Memory.wf_nil : Memory.wf [] = true := rfl

/-- Writing keeps the canonical form. -/
theorem Memory.wf_write {m : Memory} (a v : Word) (h : m.wf = true) : (m.write a v).wf = true := by
  simp only [Memory.wf, Bool.and_eq_true] at h ⊢
  obtain ⟨⟨h1, h2⟩, h3⟩ := h
  by_cases hv : v = Memory.unlisted
  · simp only [Memory.write, hv, if_true]
    exact ⟨⟨risingFrom_eraseAt _ _ _ h1, all_eraseAt _ _ _ h2⟩, all_eraseAt _ _ _ h3⟩
  · simp only [Memory.write, hv, if_false]
    refine ⟨⟨risingFrom_insertAt _ _ _ _ (risingFrom_eraseAt _ _ _ h1) (Nat.zero_le _) ?_,
      all_insertAt _ _ _ _ (all_eraseAt _ _ _ h2) ?_⟩, all_insertAt _ _ _ _ (all_eraseAt _ _ _ h3) ?_⟩
    · simp [lookupAt_eraseAt]
    · simpa using a.isLt
    · simpa using hv

/-! ### The instruction store -/

@[simp] theorem InstrStore.fetch_nil (a : Word) : InstrStore.fetch [] a = none := rfl

theorem InstrStore.fetch_place (m : InstrStore) (a b w : Word) :
    (m.place a w).fetch b = if b = a then some w else m.fetch b := by
  by_cases hb : b = a
  · subst hb
    simp [InstrStore.fetch, InstrStore.place, lookupAt_insertAt_self, lookupAt_eraseAt]
  · have hn : b.toNat ≠ a.toNat := fun e => hb (BitVec.eq_of_toNat_eq e)
    simp [InstrStore.fetch, InstrStore.place, lookupAt_insertAt_other _ _ hn, lookupAt_eraseAt, hb, hn]

/-- Placing a word at a multiple of 4 keeps the canonical form. -/
theorem InstrStore.wf_place {m : InstrStore} (a w : Word) (h : m.wf = true) (ha : a.toNat % 4 = 0) :
    (m.place a w).wf = true := by
  simp only [InstrStore.wf, Bool.and_eq_true] at h ⊢
  obtain ⟨⟨h1, h2⟩, h3⟩ := h
  refine ⟨⟨risingFrom_insertAt _ _ _ _ (risingFrom_eraseAt _ _ _ h1) (Nat.zero_le _) ?_,
    all_insertAt _ _ _ _ (all_eraseAt _ _ _ h2) ?_⟩, all_insertAt _ _ _ _ (all_eraseAt _ _ _ h3) ?_⟩
  · simp [lookupAt_eraseAt]
  · simpa using a.isLt
  · simpa using ha

/-- A present instruction address is a multiple of 4 (R50). -/
theorem InstrStore.aligned_of_fetch {m : InstrStore} {a w : Word} (h : m.wf = true) (hf : m.fetch a = some w) :
    a.toNat % 4 = 0 := by
  simp only [InstrStore.wf, Bool.and_eq_true] at h
  simpa using all_of_lookupAt _ m h.2 hf

/-! ### The register file -/

theorem RegFile.read_write (x : RegFile) (d r : Reg) (v : Word) :
    (RegFile.write x d v).read r = if r = d ∧ d ≠ 0 then v else x.read r := by
  unfold RegFile.write RegFile.read
  by_cases hd : d = 0
  · simp [hd]
  · by_cases hr : r = d
    · subst hr; simp [hd, Vector.get_eq_getElem]
    · have : d.val ≠ r.val := fun e => hr (Fin.ext e.symm)
      simp [hd, hr, Vector.get_eq_getElem, Vector.getElem_set_ne _ _ this]

@[simp] theorem RegFile.write_zero (x : RegFile) (v : Word) : RegFile.write x 0 v = x := by simp [RegFile.write]

@[simp] theorem RegFile.read_write_zero (x : RegFile) (d : Reg) (v : Word) :
    (RegFile.write x d v).read 0 = x.read 0 := by
  rw [RegFile.read_write]
  split
  · rename_i h; exact absurd h.1.symm h.2
  · rfl

end Sys2Proof.Machine
end

