-- ==== Sys2Proof/Laws/State.lean ====
section
/-! SUPPORT. The fields of the states the machine's operations make, one lemma per field, so that no later proof
unfolds a record update. -/

namespace Sys2Proof.Machine

section CycleNext
variable (y : Option MicroOp) (s : State)

@[simp] theorem State.cycleNext_pc : (s.cycleNext y).pc = s.pcNext y := rfl
@[simp] theorem State.cycleNext_x : (s.cycleNext y).x = s.regsAfterWb := rfl
@[simp] theorem State.cycleNext_dmem : (s.cycleNext y).dmem = s.dmemNext := rfl
@[simp] theorem State.cycleNext_imem : (s.cycleNext y).imem = s.imem := rfl
@[simp] theorem State.cycleNext_ifId : (s.cycleNext y).ifId = s.ifIdNext y := rfl
@[simp] theorem State.cycleNext_idEx : (s.cycleNext y).idEx = s.idExNext y := rfl
@[simp] theorem State.cycleNext_exMem : (s.cycleNext y).exMem = s.exMemNext := rfl
@[simp] theorem State.cycleNext_memWb : (s.cycleNext y).memWb = s.memWbNext := rfl
@[simp] theorem State.cycleNext_memCyclesLeft : (s.cycleNext y).memCyclesLeft = s.memCyclesLeftNext := rfl
@[simp] theorem State.cycleNext_runState :
    (s.cycleNext y).runState = if s.halting then .halted else s.runState := rfl
@[simp] theorem State.cycleNext_ctrlState : (s.cycleNext y).ctrlState = s.ctrlStateNext y := rfl
@[simp] theorem State.cycleNext_stats : (s.cycleNext y).stats = s.statsNext y := rfl
@[simp] theorem State.cycleNext_latencyInputs :
    (s.cycleNext y).latencyInputs = if s.draws then s.latencyInputs.tail else s.latencyInputs := rfl
@[simp] theorem State.cycleNext_drawsTaken : (s.cycleNext y).drawsTaken = countIf s.draws s.drawsTaken := rfl

end CycleNext

section WithFetchWord
variable (s : State) (nbits w : Nat)

@[simp] theorem State.withFetchWord_pc : (s.withFetchWord nbits w).pc = s.pc + Config.pcStep := rfl
@[simp] theorem State.withFetchWord_x : (s.withFetchWord nbits w).x = s.x := rfl
@[simp] theorem State.withFetchWord_dmem : (s.withFetchWord nbits w).dmem = s.dmem := rfl
@[simp] theorem State.withFetchWord_imem :
    (s.withFetchWord nbits w).imem = InstrStore.place s.imem s.pc (tableWord nbits w) := rfl
@[simp] theorem State.withFetchWord_ifId :
    (s.withFetchWord nbits w).ifId = some { instr := tableWord nbits w, pc := s.pc } := rfl
@[simp] theorem State.withFetchWord_idEx : (s.withFetchWord nbits w).idEx = none := rfl
@[simp] theorem State.withFetchWord_exMem : (s.withFetchWord nbits w).exMem = s.exMem := rfl
@[simp] theorem State.withFetchWord_memWb : (s.withFetchWord nbits w).memWb = s.memWb := rfl
@[simp] theorem State.withFetchWord_memCyclesLeft : (s.withFetchWord nbits w).memCyclesLeft = 0 := rfl
@[simp] theorem State.withFetchWord_runState : (s.withFetchWord nbits w).runState = .running := rfl

end WithFetchWord

end Sys2Proof.Machine
end

