-- ==== Sys2Proof/Laws/Cycle.lean ====
section
/-! SUPPORT. What the cycle, an instruction and a step can do, each said once; later proofs cite these lemmas and do not
unfold the operations. -/

namespace Sys2Proof.Machine

/-! ### The cycle -/

/-- Everything a cycle that answers a next state can have done. -/
theorem cycle_next_cases {y : Option MicroOp} {s t : State} (h : cycle y s = .next t) :
    (s.runState = .running ∧ s.malformedInDecode y = none ∧ t = s.cycleNext y) ∨ (s.runState ≠ .running ∧ t = s) := by
  unfold cycle at h
  cases hr : s.runState with
  | running =>
    rw [hr] at h
    cases hm : s.malformedInDecode y with
    | none =>
      rw [hm] at h
      exact .inl ⟨rfl, rfl, (Host.Outcome.next.inj h).symm⟩
    | some f =>
      simp [hm, raiseMalformed] at h
  | halted => rw [hr] at h; exact .inr ⟨by simp, (Host.Outcome.next.inj h).symm⟩
  | faulted => rw [hr] at h; exact .inr ⟨by simp, (Host.Outcome.next.inj h).symm⟩

theorem cycle_of_running {y : Option MicroOp} {s : State} (hr : s.runState = .running)
    (hm : s.malformedInDecode y = none) : cycle y s = .next (s.cycleNext y) := by
  simp [cycle, hr, hm]

theorem cycle_of_not_running {y : Option MicroOp} {s : State} (hr : s.runState ≠ .running) : cycle y s = .next s := by
  unfold cycle
  cases h : s.runState <;> simp_all

/-- A cycle faults exactly when the machine runs and Decode meets a malformed word. -/
theorem cycle_fault_iff {y : Option MicroOp} {s : State} {r : Fault} :
    cycle y s = .fault r ↔
      s.runState = .running ∧ ∃ f, s.malformedInDecode y = some f ∧ r = .malformedInstruction f.instr f.pc := by
  unfold cycle raiseMalformed
  cases hr : s.runState <;> cases hm : s.malformedInDecode y <;> simp [eq_comm]

/-- No cycle is refused. -/
theorem cycle_not_refused (y : Option MicroOp) (s : State) (r : Refusal) : cycle y s ≠ .refused r := by
  unfold cycle raiseMalformed
  cases hr : s.runState <;> cases hm : s.malformedInDecode y <;> simp

/-- A well-formed instruction in Decode raises nothing. -/
@[simp] theorem State.malformedInDecode_some (s : State) (m : MicroOp) : s.malformedInDecode (some m) = none := by
  simp [State.malformedInDecode]

/-- With IF_ID empty Decode raises nothing. -/
theorem State.malformedInDecode_of_empty {s : State} (y : Option MicroOp) (h : s.ifId = none) :
    s.malformedInDecode y = none := by
  simp [State.malformedInDecode, h]

/-! ### Instructions and steps -/

/-- Every instruction's meaning is the cycle with its MicroOp in Decode. -/
theorem exec_eq_cycle (i : Instr) (s : State) : exec i s = cycle (microOp i) s := by cases i <;> rfl

/-- A step is the cycle with what the decoder makes of IF_ID. -/
theorem step_eq_cycle (s : State) : step s = cycle s.inDecode s := by
  unfold step State.inDecode microOpOfWord
  cases hf : s.ifId with
  | none => rfl
  | some f =>
    cases hd : decodeWord f.instr with
    | ok i => simp [exec_eq_cycle, hd]
    | error e => simp [hd]

/-- Everything a step that answers a next state can have done. -/
theorem step_next_cases {s t : State} (h : step s = .next t) :
    (s.runState = .running ∧ s.malformedInDecode s.inDecode = none ∧ t = s.cycleNext s.inDecode) ∨
      (s.runState ≠ .running ∧ t = s) :=
  cycle_next_cases (step_eq_cycle s ▸ h)

/-- No step is refused. -/
theorem step_not_refused (s : State) (r : Refusal) : step s ≠ .refused r := by
  rw [step_eq_cycle]; exact cycle_not_refused _ _ _

/-! ### The stages, each on the cases that decide it -/

theorem State.memWait_eq_true {s : State} : s.memWait = true ↔ ∃ e, s.exMem = some e ∧ 0 < s.memCyclesLeft := by
  unfold State.memWait
  cases s.exMem <;> simp

theorem State.idRun_eq_true {y : Option MicroOp} {s : State} :
    s.idRun y = true ↔ s.memWait = false ∧ s.loadUse y = false := by
  simp [State.idRun]

theorem State.loadUse_of_memWait {y : Option MicroOp} {s : State} (h : s.memWait = true) : s.loadUse y = false := by
  simp [State.loadUse, h]

theorem State.branchStall_of_not_idRun {y : Option MicroOp} {s : State} (h : s.idRun y = false) :
    s.branchStall y = false := by
  simp [State.branchStall, h]

/-- In a wait cycle everything above the Memory stage is held (R202, R207). -/
theorem State.wait_holds {y : Option MicroOp} {s : State} (h : s.memWait = true) :
    s.exMemNext = s.exMem ∧ s.idExNext y = s.idEx ∧ s.ifIdNext y = s.ifId ∧ s.pcNext y = s.pc ∧
      s.memWbNext = none ∧ s.dmemNext = s.dmem ∧ s.memCyclesLeftNext = s.memCyclesLeft - 1 ∧ s.draws = false := by
  obtain ⟨e, he, _⟩ := State.memWait_eq_true.mp h
  have hi : s.ifRun y = false := by simp [State.ifRun, State.idRun, h]
  have hb : s.branchStall y = false := by simp [State.branchStall, State.idRun, h]
  refine ⟨by simp [State.exMemNext, h], by simp [State.idExNext, h], by simp [State.ifIdNext, hi, hb], ?_,
    by simp [State.memWbNext, he, h], by simp [State.dmemNext, he, h], by simp [State.memCyclesLeftNext, h],
    by simp [State.draws, h]⟩
  simp [State.pcNext, hi, State.fetchAddr, State.redirect, h]

/-- In a load-stall cycle IF_ID is held and ID_EX becomes empty (R205, R207). -/
theorem State.loadUse_holds {y : Option MicroOp} {s : State} (h : s.loadUse y = true) :
    s.idExNext y = none ∧ s.ifIdNext y = s.ifId ∧ s.memWait = false := by
  have hw : s.memWait = false := by
    cases hw : s.memWait
    · rfl
    · rw [State.loadUse_of_memWait hw] at h; exact absurd h (by simp)
  have hi : s.idRun y = false := by simp [State.idRun, h]
  refine ⟨by simp [State.idExNext, hw, h], ?_, hw⟩
  simp [State.ifIdNext, State.ifRun, hi, State.branchStall_of_not_idRun hi]

/-- The latency drawn is 2 or 3 (R176, LAT_SET). -/
theorem Latency.cycles_mem (l : Latency) : l.cycles = 2 ∨ l.cycles = 3 := by cases l <;> simp [Latency.cycles]

end Sys2Proof.Machine
end

