-- ==== Sys2Proof/Laws/Decode.lean ====
section
/-! SUPPORT. The fields of an encoded word, a word put together from its fields, and the shape of a MicroOp. -/

namespace Sys2Proof

/-! ### Fields of the three word formats (R74) -/

section Fields
variable (f op6 : BitVec 6) (rd rs rt : Nat) (imm : Int)

@[simp] theorem op6Of_wordR : op6Of (wordR f rd rs rt) = 0 := by
  apply BitVec.eq_of_getLsbD_eq
  intro i hi
  simp only [op6Of, wordR, BitVec.getLsbD_extractLsb', BitVec.getLsbD_append]
  interval_cases i <;> simp

@[simp] theorem rsOf_wordR : rsOf (wordR f rd rs rt) = BitVec.ofNat 5 rs := by
  apply BitVec.eq_of_getLsbD_eq
  intro i hi
  simp only [rsOf, wordR, BitVec.getLsbD_extractLsb', BitVec.getLsbD_append]
  interval_cases i <;> simp

@[simp] theorem rtOf_wordR : rtOf (wordR f rd rs rt) = BitVec.ofNat 5 rt := by
  apply BitVec.eq_of_getLsbD_eq
  intro i hi
  simp only [rtOf, wordR, BitVec.getLsbD_extractLsb', BitVec.getLsbD_append]
  interval_cases i <;> simp

@[simp] theorem rdOf_wordR : rdOf (wordR f rd rs rt) = BitVec.ofNat 5 rd := by
  apply BitVec.eq_of_getLsbD_eq
  intro i hi
  simp only [rdOf, wordR, BitVec.getLsbD_extractLsb', BitVec.getLsbD_append]
  interval_cases i <;> simp

@[simp] theorem shamtOf_wordR : shamtOf (wordR f rd rs rt) = 0 := by
  apply BitVec.eq_of_getLsbD_eq
  intro i hi
  simp only [shamtOf, wordR, BitVec.getLsbD_extractLsb', BitVec.getLsbD_append]
  interval_cases i <;> simp

@[simp] theorem functOf_wordR : functOf (wordR f rd rs rt) = f := by
  apply BitVec.eq_of_getLsbD_eq
  intro i hi
  simp only [functOf, wordR, BitVec.getLsbD_extractLsb', BitVec.getLsbD_append]
  interval_cases i <;> simp

@[simp] theorem op6Of_wordI : op6Of (wordI op6 rs rt imm) = op6 := by
  apply BitVec.eq_of_getLsbD_eq
  intro i hi
  simp only [op6Of, wordI, BitVec.getLsbD_extractLsb', BitVec.getLsbD_append]
  interval_cases i <;> simp

@[simp] theorem rsOf_wordI : rsOf (wordI op6 rs rt imm) = BitVec.ofNat 5 rs := by
  apply BitVec.eq_of_getLsbD_eq
  intro i hi
  simp only [rsOf, wordI, BitVec.getLsbD_extractLsb', BitVec.getLsbD_append]
  interval_cases i <;> simp

@[simp] theorem rtOf_wordI : rtOf (wordI op6 rs rt imm) = BitVec.ofNat 5 rt := by
  apply BitVec.eq_of_getLsbD_eq
  intro i hi
  simp only [rtOf, wordI, BitVec.getLsbD_extractLsb', BitVec.getLsbD_append]
  interval_cases i <;> simp

@[simp] theorem imm16Of_wordI : imm16Of (wordI op6 rs rt imm) = BitVec.ofInt 16 imm := by
  apply BitVec.eq_of_getLsbD_eq
  intro i hi
  simp only [imm16Of, wordI, BitVec.getLsbD_extractLsb', BitVec.getLsbD_append]
  interval_cases i <;> simp

@[simp] theorem op6Of_wordJ : op6Of (wordJ imm) = 2 := by
  apply BitVec.eq_of_getLsbD_eq
  intro i hi
  simp only [op6Of, wordJ, BitVec.getLsbD_extractLsb', BitVec.getLsbD_append]
  interval_cases i <;> simp

@[simp] theorem idx26Of_wordJ : idx26Of (wordJ imm) = BitVec.ofInt 26 imm := by
  apply BitVec.eq_of_getLsbD_eq
  intro i hi
  simp only [idx26Of, wordJ, BitVec.getLsbD_extractLsb', BitVec.getLsbD_append]
  interval_cases i <;> simp

end Fields

/-! ### A word put together from its fields (R74) -/

theorem word_of_fieldsR (w : Word) :
    (op6Of w ++ rsOf w ++ rtOf w ++ rdOf w ++ shamtOf w ++ functOf w : BitVec 32) = w := by
  apply BitVec.eq_of_getLsbD_eq
  intro i hi
  simp only [op6Of, rsOf, rtOf, rdOf, shamtOf, functOf, BitVec.getLsbD_extractLsb', BitVec.getLsbD_append]
  interval_cases i <;> simp

theorem word_of_fieldsI (w : Word) : (op6Of w ++ rsOf w ++ rtOf w ++ imm16Of w : BitVec 32) = w := by
  apply BitVec.eq_of_getLsbD_eq
  intro i hi
  simp only [op6Of, rsOf, rtOf, imm16Of, BitVec.getLsbD_extractLsb', BitVec.getLsbD_append]
  interval_cases i <;> simp

theorem word_of_fieldsJ (w : Word) : (op6Of w ++ idx26Of w : BitVec 32) = w := by
  apply BitVec.eq_of_getLsbD_eq
  intro i hi
  simp only [op6Of, idx26Of, BitVec.getLsbD_extractLsb', BitVec.getLsbD_append]
  interval_cases i <;> simp

/-! ### Operands in range -/

theorem ofInt16_toInt {i : Int} (h : imm16Ok i = true) : (BitVec.ofInt 16 i).toInt = i := by
  simp only [imm16Ok, Bool.and_eq_true, decide_eq_true_eq] at h
  rw [BitVec.toInt_ofInt]
  exact Int.bmod_eq_of_le (by omega) (by omega)

theorem ofInt26_toNat {i : Int} (h : idx26Ok i = true) : ((BitVec.ofInt 26 i).toNat : Int) = i := by
  simp only [idx26Ok, Bool.and_eq_true, decide_eq_true_eq] at h
  rw [BitVec.toNat_ofInt]
  have : i % ((2 ^ 26 : Nat) : Int) = i := Int.emod_eq_of_lt h.1 (by omega)
  rw [this]
  omega

theorem ofNat5_toNat {n : Nat} (h : regOk n = true) : (BitVec.ofNat 5 n).toNat = n := by
  simp only [regOk, decide_eq_true_eq] at h
  simp [Nat.mod_eq_of_lt h]

theorem regOk_toNat (v : BitVec 5) : regOk v.toNat = true := by
  simpa [regOk] using v.isLt

theorem imm16Ok_toInt (v : BitVec 16) : imm16Ok v.toInt = true := by
  have h1 := BitVec.le_toInt v
  have h2 := BitVec.toInt_lt (x := v)
  simp only [imm16Ok, Bool.and_eq_true, decide_eq_true_eq]
  omega

theorem idx26Ok_toNat (v : BitVec 26) : idx26Ok (v.toNat : Int) = true := by
  have := v.isLt
  simp only [idx26Ok, Bool.and_eq_true, decide_eq_true_eq]
  omega

/-- The decoder answers well-formed instructions alone: every 5-bit field is a legal register index (R76). -/
theorem wellFormed_of_decodeWord {w : Word} {i : Instr} (h : decodeWord w = .ok i) : i.wellFormed = true := by
  unfold decodeWord at h
  repeat' split at h
  all_goals first
    | (cases h; simp [Instr.wellFormed, regOk_toNat, immOf, imm16Ok_toInt, idxOf, idx26Ok_toNat])
    | simp at h

end Sys2Proof

namespace Sys2Proof.Machine

/-! ### MicroOps -/

@[simp] theorem regOperand_val (r : Reg) : regOperand r.val = some r := by simp [regOperand]

theorem regOperand_eq_some {n : Nat} {r : Reg} : regOperand n = some r ↔ n = r.val := by
  unfold regOperand
  constructor
  · intro h
    split at h
    · rw [← Option.some.inj h]
    · simp at h
  · rintro rfl; simp

theorem immOperand_eq_some {i : Int} {v : Word} :
    immOperand i = some v ↔ imm16Ok i = true ∧ v = BitVec.ofInt 32 i := by
  unfold immOperand
  cases imm16Ok i <;> simp [eq_comm]

theorem idxOperand_eq_some {i : Int} {v : Word} :
    idxOperand i = some v ↔ idx26Ok i = true ∧ v = BitVec.ofInt 32 i := by
  unfold idxOperand
  cases idx26Ok i <;> simp [eq_comm]

theorem formR_eq_some {op : Op} {rd rs rt : Nat} {m : MicroOp} :
    formR op rd rs rt = some m ↔ ∃ d a b : Reg, rd = d.val ∧ rs = a.val ∧ rt = b.val ∧
      m = ⟨op, some a, some b, some d, none, controlOf op⟩ := by
  unfold formR
  constructor
  · intro h
    split at h
    · rename_i d a b hd ha hb
      exact ⟨d, a, b, regOperand_eq_some.mp hd, regOperand_eq_some.mp ha, regOperand_eq_some.mp hb,
        (Option.some.inj h).symm⟩
    · simp at h
  · rintro ⟨d, a, b, rfl, rfl, rfl, rfl⟩
    simp

theorem formI_eq_some {op : Op} {rs rt : Nat} {imm : Int} {m : MicroOp} :
    formI op rs rt imm = some m ↔ ∃ a b : Reg, rs = a.val ∧ rt = b.val ∧ imm16Ok imm = true ∧
      m = ⟨op, some a, some b, none, some (BitVec.ofInt 32 imm), controlOf op⟩ := by
  unfold formI
  constructor
  · intro h
    split at h
    · rename_i a b i ha hb hi
      obtain ⟨hok, rfl⟩ := immOperand_eq_some.mp hi
      exact ⟨a, b, regOperand_eq_some.mp ha, regOperand_eq_some.mp hb, hok, (Option.some.inj h).symm⟩
    · simp at h
  · rintro ⟨a, b, rfl, rfl, hok, rfl⟩
    simp [immOperand, hok]

theorem formJ_eq_some {imm : Int} {m : MicroOp} :
    formJ imm = some m ↔ idx26Ok imm = true ∧
      m = ⟨.j, none, none, none, some (BitVec.ofInt 32 imm), controlOf .j⟩ := by
  unfold formJ idxOperand
  cases h : idx26Ok imm <;> simp [eq_comm]

theorem formH_eq_some {m : MicroOp} : formH = some m ↔ m = ⟨.halt, none, none, none, none, controlOf .halt⟩ := by
  simp [formH, eq_comm]

/-- The control vector of a MicroOp is that of its opcode (R104). -/
theorem ctrl_of_microOp {i : Instr} {m : MicroOp} (h : microOp i = some m) : m.ctrl = controlOf m.op := by
  cases i <;> simp only [microOp, formR_eq_some, formI_eq_some, formJ_eq_some, formH_eq_some] at h
  case add => obtain ⟨_, _, _, _, _, _, rfl⟩ := h; rfl
  case sub => obtain ⟨_, _, _, _, _, _, rfl⟩ := h; rfl
  case addi => obtain ⟨_, _, _, _, _, rfl⟩ := h; rfl
  case subi => obtain ⟨_, _, _, _, _, rfl⟩ := h; rfl
  case lw => obtain ⟨_, _, _, _, _, rfl⟩ := h; rfl
  case sw => obtain ⟨_, _, _, _, _, rfl⟩ := h; rfl
  case beq => obtain ⟨_, _, _, _, _, rfl⟩ := h; rfl
  case j => obtain ⟨_, rfl⟩ := h; rfl
  case halt => subst h; rfl

/-- A word's MicroOp is that of the instruction it decodes to. -/
theorem microOpOfWord_eq_some {w : Word} {m : MicroOp} :
    microOpOfWord w = some m ↔ ∃ i, decodeWord w = .ok i ∧ microOp i = some m := by
  unfold microOpOfWord
  cases decodeWord w <;> simp

theorem ctrl_of_word {w : Word} {m : MicroOp} (h : microOpOfWord w = some m) : m.ctrl = controlOf m.op := by
  obtain ⟨i, _, hi⟩ := microOpOfWord_eq_some.mp h
  exact ctrl_of_microOp hi

end Sys2Proof.Machine
end

