-- ==== Sys2Proof/Laws/Invariant.lean ====
section
/-! SUPPORT. A decidable form of the invariant, so that a concrete state can be shown to meet it by evaluation. -/

namespace Sys2Proof.Machine

/-- EX_MEM and MEM_WB carry the opcode, control vector and destination of their word. -/
def carriesWord (instr : Word) (op : Op) (ctrl : ControlSignals) (dest : Option Reg) : Bool :=
  match microOpOfWord instr with
  | none => false
  | some m => decide (op = m.op ∧ ctrl = m.ctrl ∧ dest = m.dest)

theorem of_carriesWord {instr : Word} {op : Op} {ctrl : ControlSignals} {dest : Option Reg}
    (h : carriesWord instr op ctrl dest = true) :
    ∃ m, microOpOfWord instr = some m ∧ op = m.op ∧ ctrl = m.ctrl ∧ dest = m.dest := by
  unfold carriesWord at h
  split at h
  · simp at h
  · exact ⟨_, ‹_›, of_decide_eq_true h⟩

/-- The fields of the invariant that speak of the stores, `pc` and the front of the pipeline. -/
def State.invFront (s : State) : Bool :=
  s.dmem.wf && s.imem.wf && decide (s.x.read 0 = 0) && decide (s.pc.toNat % 4 = 0) &&
  decide (∀ f ∈ s.ifId, s.imem.fetch f.pc = some f.instr ∧ s.pc = f.pc + 4) &&
  decide (∀ i ∈ s.idEx, microOpOfWord i.instr = some i.toMicroOp ∧ s.imem.fetch i.pc = some i.instr) &&
  decide (∀ i ∈ s.idEx, i.transfers = true → s.ifId = none ∧ s.pc = i.pc + 4)

/-- The fields of the invariant that speak of the back of the pipeline, the counter and the controller. -/
def State.invBack (s : State) : Bool :=
  decide (∀ e ∈ s.exMem, carriesWord e.instr e.op e.ctrl e.dest = true) &&
  decide (∀ w ∈ s.memWb, carriesWord w.instr w.op w.ctrl w.dest = true ∧ (w.ctrl.memRead = false → w.memData = 0)) &&
  decide (s.memCyclesLeft ≤ 3) &&
  decide ((∀ e ∈ s.exMem, e.isMemOp = false) → s.memCyclesLeft = 0) &&
  decide (∀ e ∈ s.exMem, ∀ _w ∈ s.memWb, e.isMemOp = true → 2 ≤ s.memCyclesLeft) &&
  decide (∀ e ∈ s.exMem, ∀ i ∈ s.idEx, e.ctrl.memRead = true →
    sameReg i.rs e.dest = false ∧ sameReg i.rt e.dest = false) &&
  decide (s.runState ≠ .faulted) && decide (s.runState = .halted ↔ s.ctrlState = .halted)

/-- A state that passes both checks meets the invariant. -/
theorem State.inv_of_checks {s : State} (hf : s.invFront = true) (hb : s.invBack = true) : s.Inv := by
  simp only [State.invFront, Bool.and_eq_true, decide_eq_true_eq, Option.mem_def] at hf
  simp only [State.invBack, Bool.and_eq_true, decide_eq_true_eq, Option.mem_def] at hb
  obtain ⟨⟨⟨⟨⟨⟨h1, h2⟩, h3⟩, h4⟩, h5⟩, h6⟩, h7⟩ := hf
  obtain ⟨⟨⟨⟨⟨⟨⟨b1, b2⟩, b3⟩, b4⟩, b5⟩, b6⟩, b7⟩, b8⟩ := hb
  exact
    { dmemWf := h1, imemWf := h2, zeroReg := h3, pcAligned := h4, ifIdFetched := h5, idExDecoded := h6
      exMemDecoded := fun e he => of_carriesWord (b1 e he)
      memWbDecoded := fun w hw => ⟨of_carriesWord (b2 w hw).1, (b2 w hw).2⟩
      counterBound := b3, counterIdle := b4
      counterFresh := fun e w he hw => b5 e he w hw
      transferAlone := h7
      loadUseClear := fun e i he hm hi => b6 e he i hi hm
      notFaulted := b7, haltedShown := b8 }

end Sys2Proof.Machine
end

