-- ==== Sys2Proof/Laws/Sequential.lean ====
section
/-! SUPPORT. What completing the occupant of a pipeline register does to an architectural state, and the facts about the
stages that the invariant gives. -/

namespace Sys2Proof.Machine

/-! ### Completing one occupant -/

@[simp] theorem MemWb.complete_ended (w : MemWb) (x : RegFile) (d : Memory) :
    w.complete ⟨none, x, d⟩ = ⟨none, x, d⟩ := rfl
@[simp] theorem ExMem.complete_ended (e : ExMem) (x : RegFile) (d : Memory) :
    e.complete ⟨none, x, d⟩ = ⟨none, x, d⟩ := rfl
@[simp] theorem IdEx.complete_ended (i : IdEx) (x : RegFile) (d : Memory) :
    i.complete ⟨none, x, d⟩ = ⟨none, x, d⟩ := rfl
@[simp] theorem completeOpt_none {α : Type} (f : α → Arch → Arch) (a : Arch) : completeOpt f none a = a := rfl
@[simp] theorem completeOpt_some {α : Type} (f : α → Arch → Arch) (r : α) (a : Arch) :
    completeOpt f (some r) a = f r a := rfl

theorem MemWb.complete_of_halt {w : MemWb} (h : w.op = .halt) (p : Word) (x : RegFile) (d : Memory) :
    w.complete ⟨some p, x, d⟩ = ⟨none, x, d⟩ := by
  simp [MemWb.complete, h]

theorem MemWb.complete_of_not_halt {w : MemWb} (h : w.op ≠ .halt) (p : Word) (x : RegFile) (d : Memory) :
    w.complete ⟨some p, x, d⟩ = ⟨some p, w.writeTo x, d⟩ := by
  simp [MemWb.complete, h]

theorem ExMem.complete_of_halt {e : ExMem} (h : e.op = .halt) (p : Word) (x : RegFile) (d : Memory) :
    e.complete ⟨some p, x, d⟩ = ⟨none, x, e.storeTo d⟩ :=
  MemWb.complete_of_halt (w := e.perform d) h p x (e.storeTo d)

theorem ExMem.complete_of_not_halt {e : ExMem} (h : e.op ≠ .halt) (p : Word) (x : RegFile) (d : Memory) :
    e.complete ⟨some p, x, d⟩ = ⟨some p, (e.perform d).writeTo x, e.storeTo d⟩ :=
  MemWb.complete_of_not_halt (w := e.perform d) h p x (e.storeTo d)

theorem Arch.effect_of_ended {a : Arch} (i : Instr) (h : a.pc = none) : a.effect i = a := by
  simp [Arch.effect, h]

theorem Arch.effect_of_pc {a : Arch} {p : Word} (i : Instr) (h : a.pc = some p) : a.effect i = a.effectAt p i := by
  simp [Arch.effect, h]

/-- An instruction that has just been issued at `p`, completed on the architectural state it was issued in, has its
sequential effect. -/
theorem IdEx.complete_issued {i : Instr} {m : MicroOp} (h : microOp i = some m) (w p : Word) (x : RegFile) (d : Memory) :
    IdEx.complete { m with instr := w, pc := p } ⟨some (p + 4), x, d⟩ = Arch.effectAt ⟨some p, x, d⟩ p i := by
  cases i <;> simp only [microOp, formR_eq_some, formI_eq_some, formJ_eq_some, formH_eq_some] at h
  case add | sub =>
    obtain ⟨d, a, b, rfl, rfl, rfl, rfl⟩ := h
    simp [IdEx.complete, ExMem.complete, MemWb.complete, ExMem.perform, ExMem.storeTo, IdEx.execute, MicroOp.redirect,
      MicroOp.result, MicroOp.secondOperand, alu, MicroOp.dest, controlOf, Arch.effectAt, Arch.reg, Arch.setReg,
      MemWb.value, MemWb.writeTo]
  case addi | subi | lw | sw =>
    obtain ⟨a, b, rfl, rfl, _, rfl⟩ := h
    simp [IdEx.complete, ExMem.complete, MemWb.complete, ExMem.perform, ExMem.storeTo, IdEx.execute, MicroOp.redirect,
      MicroOp.result, MicroOp.secondOperand, MicroOp.immValue, alu, MicroOp.dest, controlOf, Arch.effectAt, Arch.reg,
      Arch.setReg, Arch.address, MemWb.value, MemWb.writeTo]
  case beq =>
    obtain ⟨a, b, rfl, rfl, _, rfl⟩ := h
    simp [IdEx.complete, ExMem.complete, MemWb.complete, ExMem.perform, ExMem.storeTo, IdEx.execute, MicroOp.redirect,
      MicroOp.immValue, MicroOp.dest, controlOf, Arch.effectAt, Arch.reg, MemWb.writeTo, operandsEqual, branchTarget]
    split <;> simp
  case j =>
    obtain ⟨_, rfl⟩ := h
    simp [IdEx.complete, ExMem.complete, MemWb.complete, ExMem.perform, ExMem.storeTo, IdEx.execute, MicroOp.redirect,
      MicroOp.immValue, MicroOp.dest, controlOf, Arch.effectAt, MemWb.writeTo, jumpTarget]
  case halt =>
    subst h
    simp [IdEx.complete, ExMem.complete, MemWb.complete, ExMem.perform, ExMem.storeTo, IdEx.execute, controlOf,
      Arch.effectAt]

/-! ### Facts of the stages under the invariant -/

theorem State.inDecode_of_ifId {s : State} {f : IfId} (h : s.ifId = some f) : s.inDecode = microOpOfWord f.instr := by
  simp [State.inDecode, h]

/-- The control vector in ID_EX is that of its opcode. -/
theorem State.Inv.ctrl_idEx {s : State} (hi : s.Inv) {i : IdEx} (h : s.idEx = some i) : i.ctrl = controlOf i.op :=
  ctrl_of_word (hi.idExDecoded i h).1

/-- No redirect without a `beq` or `j` in ID_EX. -/
theorem State.redirect_of_no_transfer {s : State} {i : IdEx} (h : s.idEx = some i) (ht : i.transfers = false) :
    s.redirect = none := by
  unfold IdEx.transfers at ht
  simp only [Bool.or_eq_false_iff] at ht
  unfold State.redirect
  split
  · rfl
  · simp [h, MicroOp.redirect, ht.1, ht.2]

/-- A redirect never meets a non-empty IF_ID (R46). -/
theorem State.Inv.no_redirect {s : State} (hi : s.Inv) {f : IfId} (hf : s.ifId = some f) : s.redirect = none := by
  cases hx : s.idEx with
  | none => simp [State.redirect, hx]
  | some i =>
    cases ht : i.transfers with
    | false => exact State.redirect_of_no_transfer hx ht
    | true =>
      have := (hi.transferAlone i hx ht).1
      rw [hf] at this
      exact absurd this (by simp)

/-- Execute reads for a present source of ID_EX what completing EX_MEM and MEM_WB leaves in that register: the bypass and
the write-through give the sequential value, and a load is never needed (R47, R171, R172). -/
theorem State.Inv.operand_eq {s : State} (hi : s.Inv) {e : ExMem} (he : s.exMem = some e) {i : IdEx}
    (hx : s.idEx = some i) {r : Reg} (hr : i.rs = some r ∨ i.rt = some r) :
    s.operand r = ((e.perform s.dmem).writeTo s.regsAfterWb).read r := by
  simp only [State.operand, he, ExMem.bypasses, MemWb.writeTo]
  rcases Bool.eq_false_or_eq_true e.ctrl.regWrite with hw | hw <;> simp [ExMem.perform, hw]
  cases hd : e.dest with
  | none => simp
  | some d =>
    simp only [RegFile.read_write]
    cases hm : e.ctrl.memRead with
    | false =>
      by_cases h0 : r = 0
      · subst h0; by_cases hd0 : d = 0 <;> simp [hd0]
        rintro rfl; simp at hd0
      · by_cases hrd : r = d
        · subst hrd; simp [h0, MemWb.value, hm]
        · simp [h0, hrd, eq_comm]
    | true =>
      have hc := hi.loadUseClear e i he hm hx
      have hne : r ≠ d := by
        rintro rfl
        rcases hr with h | h
        · have := hc.1; simp [h, hd, sameReg] at this
        · have := hc.2; simp [h, hd, sameReg] at this
      simp [hne]

end Sys2Proof.Machine
end

