-- ==== Sys2Proof/Laws/Run.lean ====
section
/-! SUPPORT. Runs of many cycles: how they compose, and the induction over them, packaged once. -/

namespace Sys2Proof.Machine

@[simp] theorem runFor_zero (s : State) : runFor 0 s = .next s := rfl

theorem runFor_succ (k : Nat) (s : State) :
    runFor (k + 1) s = match step s with
      | .next t => runFor k t
      | .fault r => .fault r
      | .refused r => .refused r := rfl

/-- A run that answers a next state passed through a next state at its first cycle. -/
theorem runFor_succ_next {k : Nat} {s u : State} (h : runFor (k + 1) s = .next u) :
    ∃ t, step s = .next t ∧ runFor k t = .next u := by
  rw [runFor_succ] at h
  cases hs : step s with
  | next t => rw [hs] at h; exact ⟨t, rfl, h⟩
  | fault r => simp [hs] at h
  | refused r => simp [hs] at h

theorem runFor_add {k : Nat} {s t : State} (n : Nat) (h : runFor k s = .next t) : runFor (k + n) s = runFor n t := by
  induction k generalizing s with
  | zero => rw [Nat.zero_add]; rw [runFor_zero] at h; rw [Host.Outcome.next.inj h]
  | succ k ih =>
    obtain ⟨v, hv, hk⟩ := runFor_succ_next h
    have : k + 1 + n = (k + n) + 1 := by omega
    rw [this, runFor_succ, hv]
    exact ih hk

theorem step_of_stopped {s : State} (h : s.runState ≠ .running) : step s = .next s := by
  rw [step_eq_cycle]; exact cycle_of_not_running h

theorem runFor_of_stopped {s : State} (h : s.runState ≠ .running) (n : Nat) : runFor n s = .next s := by
  induction n with
  | zero => rfl
  | succ n ih => rw [runFor_succ, step_of_stopped h]; exact ih

/-- A run is never refused. -/
theorem runFor_not_refused (k : Nat) (s : State) (r : Refusal) : runFor k s ≠ .refused r := by
  induction k generalizing s with
  | zero => simp
  | succ k ih =>
    rw [runFor_succ]
    cases hs : step s with
    | next t => exact ih t
    | fault q => simp
    | refused q => exact absurd hs (step_not_refused s q)

/-- What holds at the start and is kept by every step holds after any number of cycles. -/
theorem runFor_induction {P : State → Prop} (hk : ∀ s t, P s → step s = .next t → P t) {k : Nat} {s t : State}
    (hs : P s) (h : runFor k s = .next t) : P t := by
  induction k generalizing s with
  | zero => rw [← Host.Outcome.next.inj h]; exact hs
  | succ k ih =>
    obtain ⟨v, hv, hr⟩ := runFor_succ_next h
    exact ih (hk s v hs hv) hr

end Sys2Proof.Machine
end

