-- ==== Sys2Proof/Machine/Outputs.lean ====
section
/-! DEFINITION. What the core shows outside: the per-cycle snapshot (R40), the final statistics (R41), and the output
ports of a realisation (R42). All are read-only functions of the state; the core reads none of them back. -/

namespace Sys2Proof.Machine

/-- A pipeline register as the reporter sees it: empty, or the word and its fetch-time address (R40). -/
structure Shown where
  instr : Word
  pc : Word
deriving DecidableEq, Repr

/-- The per-cycle report (R40). -/
structure Snapshot where
  ifId : Option Shown
  idEx : Option Shown
  exMem : Option Shown
  memWb : Option Shown
  pc : Word
  x : RegFile
  ctrlState : CtrlState
deriving DecidableEq, Repr

/-- The snapshot of a state at the end of a cycle (R40). -/
def State.snapshot (s : State) : Snapshot :=
  { ifId := s.ifId.map (fun r => ⟨r.instr, r.pc⟩)
    idEx := s.idEx.map (fun r => ⟨r.instr, r.pc⟩)
    exMem := s.exMem.map (fun r => ⟨r.instr, r.pc⟩)
    memWb := s.memWb.map (fun r => ⟨r.instr, r.pc⟩)
    pc := s.pc
    x := s.x
    ctrlState := s.ctrlState }

/-- The final statistics (R41, R258); the final `pc` is not part of it. -/
structure FinalReport where
  stats : Stats
  x : RegFile
  dmem : Memory
deriving DecidableEq, Repr

/-- The result of a run, present once the machine has halted (R41, R258). -/
def State.finalReport (s : State) : Option FinalReport :=
  match s.runState with
  | .halted => some { stats := s.stats, x := s.x, dmem := s.dmem }
  | .running => none
  | .faulted => none

/-! ### Ports (R42) -/

/-- `run_state` at the end of a cycle that answered `o` (R35, R230): `faulted` where the cycle raised the fault, which
answers no state. A refused cycle, which no step answers, has none. -/
def runStateAfter (o : Host.Outcome State Fault Refusal) : Option RunState :=
  match o with
  | .next t => some t.runState
  | .fault _ => some .faulted
  | .refused _ => none

/-- A cycle is taken in this state: only while the machine runs (R160). -/
def State.clocked (s : State) : Bool := decide (s.runState = .running)

/-- The occupant of EX_MEM on which Memory has its perform cycle in a cycle that starts in `s` (R182), if any. -/
def State.performing (s : State) : Option ExMem := if s.clocked && !s.memWait then s.exMem else none

/-- The output ports (R42). A bus on which R42 puts nothing is `none` (log entry 13). -/
structure Ports where
  imemAddr : Option Word
  dmemAddr : Option Word
  dmemRe : Bool
  dmemWe : Bool
  dmemWdata : Option Word
  halted : Bool
  faulted : Bool
  snapshotBus : Snapshot
deriving DecidableEq, Repr

/-- The output ports in a cycle that starts in `s` (R42): the fetch address (R164), `alu_result` and the strobes in a
perform cycle, and `store_value` whenever EX_MEM holds one, in a wait cycle too.

The model's choice (log entry 13): in a halted or faulted machine no cycle is taken (R35), so `imem_addr` carries
nothing there; R42 is silent on it. -/
def State.ports (s : State) : Ports :=
  { imemAddr := if s.clocked then some s.fetchAddr else none
    dmemAddr := s.performing.map (fun e => e.aluResult)
    dmemRe := s.performing.any (fun e => e.ctrl.memRead)
    dmemWe := s.performing.any (fun e => e.ctrl.memWrite)
    dmemWdata := s.exMem.map (fun e => e.storeValue)
    halted := decide (s.runState = .halted)
    faulted := decide (s.runState = .faulted)
    snapshotBus := s.snapshot }

/-- The input ports (R42) but for `clk` and `rst` (`clockEdge`): what the two stores and the latency source answer. -/
structure PortInputs where
  imemPresent : Bool
  imemWord : Option Word
  dmemRdata : Option Word
  latIn : Option Latency
deriving DecidableEq, Repr

/-- The input ports in a cycle that starts in `s` (R42), answered from the state, which holds both stores and the latency
source: `imem_word` is meaningful where the address is present, `dmem_rdata` in a perform cycle, and `lat_in` is sampled
in the cycle in which Execute runs on an `lw` or an `sw` (R176). Elsewhere they carry nothing (log entry 13). -/
def State.portInputs (s : State) : PortInputs :=
  let word := if s.clocked then s.imem.fetch s.fetchAddr else none
  { imemPresent := word.isSome
    imemWord := word
    dmemRdata := s.performing.map (fun e => s.dmem.read e.aluResult)
    latIn := if s.clocked && s.draws then some s.draw else none }

end Sys2Proof.Machine
end

