-- ==== Sys2Proof/Laws/Outputs.lean ====
section
/-! SUPPORT. What the ports show in a running and in a stopped machine, and what the reset edge leaves. -/

namespace Sys2Proof.Machine

/-! ### Ports -/

theorem State.performing_eq_some {s : State} {e : ExMem} :
    s.performing = some e ↔ s.runState = .running ∧ s.memWait = false ∧ s.exMem = some e := by
  simp [State.performing, State.clocked, and_assoc]

/-- No perform cycle in a machine that has stopped (R35). -/
theorem State.performing_of_stopped {s : State} (h : s.runState ≠ .running) : s.performing = none := by
  simp [State.performing, State.clocked, h]

/-- The write strobe is asserted exactly in the perform cycle of a store (R42, R182). -/
theorem State.ports_dmemWe {s : State} :
    s.ports.dmemWe = true ↔
      s.runState = .running ∧ s.memWait = false ∧ ∃ e, s.exMem = some e ∧ e.ctrl.memWrite = true := by
  simp [State.ports, Option.any_eq_true, State.performing_eq_some, and_assoc]

/-- The read strobe is asserted exactly in the perform cycle of a load (R42, R182). -/
theorem State.ports_dmemRe {s : State} :
    s.ports.dmemRe = true ↔
      s.runState = .running ∧ s.memWait = false ∧ ∃ e, s.exMem = some e ∧ e.ctrl.memRead = true := by
  simp [State.ports, Option.any_eq_true, State.performing_eq_some, and_assoc]

/-- A stopped machine asks for nothing: no fetch address, no data address, no strobe, no draw. -/
theorem State.ports_of_stopped {s : State} (h : s.runState ≠ .running) :
    s.ports.imemAddr = none ∧ s.ports.dmemAddr = none ∧ s.ports.dmemRe = false ∧ s.ports.dmemWe = false ∧
      s.portInputs = { imemPresent := false, imemWord := none, dmemRdata := none, latIn := none } := by
  simp [State.ports, State.portInputs, State.performing_of_stopped h, State.clocked, h]

/-- In the cycle a step takes, the data store changes exactly where the ports say so (R42, R182). -/
theorem step_dmem_of_ports {s t : State} (h : step s = .next t) :
    t.dmem = match s.ports.dmemWe, s.ports.dmemAddr, s.ports.dmemWdata with
      | true, some a, some v => s.dmem.write a v
      | _, _, _ => s.dmem := by
  rcases step_next_cases h with ⟨hr, -, rfl⟩ | ⟨hn, rfl⟩
  · cases he : s.exMem with
    | none => simp [State.dmemNext, State.ports, State.performing, he]
    | some e =>
      cases hw : s.memWait <;> cases hs : e.ctrl.memWrite <;>
        simp [State.dmemNext, State.ports, State.performing, State.clocked, ExMem.storeTo, he, hw, hs, hr]
  · simp [(State.ports_of_stopped hn).2.2.2.1]

/-- `run_state` after a step from a state that is not faulted is `faulted` exactly where the step faults (R35, R230). -/
theorem runStateAfter_step_faulted {s : State} (h : s.runState ≠ .faulted) :
    runStateAfter (step s) = some .faulted ↔ ∃ r, step s = .fault r := by
  cases hs : step s with
  | next t =>
    rcases step_next_cases hs with ⟨hr, -, rfl⟩ | ⟨-, rfl⟩
    · cases hh : s.halting <;> simp [runStateAfter, hh, hr]
    · simp [runStateAfter, h]
  | fault r => simp [runStateAfter]
  | refused r => exact absurd hs (step_not_refused s r)

/-! ### The reset edge -/

/-- Everything a reset edge can do: it is refused with the launches `start` refuses, else every piece of state takes its
reset value and the two inputs stay (R42, R44). -/
theorem State.applyReset_eq_some {l : Launch} {s t : State} :
    s.applyReset l = some t ↔
      l.ok = true ∧ t = { l.initial with
        imem := s.imem
        latencyInputs := s.latencyInputs
        drawsTaken := s.drawsTaken } := by
  by_cases h : l.ok = true <;> simp [State.applyReset, Launch.start, h, eq_comm]

@[simp] theorem clockEdge_run (l : Launch) (s : State) : clockEdge l false s = some (step s) := rfl

/-- After a reset edge register 0 holds 0 (R23, R44). -/
theorem State.applyReset_zero {l : Launch} {s t : State} (h : s.applyReset l = some t) : t.x.read 0 = 0 := by
  obtain ⟨hk, rfl⟩ := State.applyReset_eq_some.mp h
  simp only [Launch.ok, Bool.and_eq_true, decide_eq_true_eq] at hk
  exact hk.1.2

end Sys2Proof.Machine
end

