-- ==== Sys2Proof/Laws/PerInstr.lean ====
section
/-! SUPPORT. A law of every instruction as syntax: it has a MicroOp exactly when it is well-formed (R72), and the MicroOp
carries the instruction's own opcode. -/

namespace Sys2Proof.Laws.MicroOpOfWellFormed

open Sys2Proof.Machine

/-- The opcode of an instruction (R70). -/
def opOf : Instr → Op
  | .add _ _ _ => .add
  | .sub _ _ _ => .sub
  | .addi _ _ _ => .addi
  | .subi _ _ _ => .subi
  | .lw _ _ _ => .lw
  | .sw _ _ _ => .sw
  | .beq _ _ _ => .beq
  | .j _ => .j
  | .halt => .halt

/-- R72: well-formed exactly when there is a MicroOp, which then has the instruction's opcode. -/
def Statement (i : Instr) : Prop :=
  (i.wellFormed = true ↔ ∃ m, microOp i = some m) ∧ ∀ m, microOp i = some m → m.op = opOf i

theorem regOk_iff (n : Nat) : regOk n = true ↔ ∃ r : Reg, n = r.val := by
  simp only [regOk, decide_eq_true_eq]
  exact ⟨fun h => ⟨⟨n, h⟩, rfl⟩, fun ⟨r, h⟩ => h ▸ r.isLt⟩

theorem statement_formR {op : Op} {rd rs rt : Nat} {i : Instr} (hm : microOp i = formR op rd rs rt)
    (hw : i.wellFormed = (regOk rd && regOk rs && regOk rt)) (ho : opOf i = op) : Statement i := by
  constructor
  · rw [hw, hm]
    simp only [Bool.and_eq_true, regOk_iff, formR_eq_some]
    constructor
    · rintro ⟨⟨⟨d, hd⟩, a, ha⟩, b, hb⟩
      exact ⟨_, d, a, b, hd, ha, hb, rfl⟩
    · rintro ⟨_, d, a, b, hd, ha, hb, _⟩
      exact ⟨⟨⟨d, hd⟩, a, ha⟩, b, hb⟩
  · intro m h
    rw [hm, formR_eq_some] at h
    obtain ⟨_, _, _, _, _, _, rfl⟩ := h
    exact ho.symm

theorem statement_formI {op : Op} {rs rt : Nat} {imm : Int} {i : Instr} (hm : microOp i = formI op rs rt imm)
    (hw : i.wellFormed = true ↔ regOk rs = true ∧ regOk rt = true ∧ imm16Ok imm = true) (ho : opOf i = op) :
    Statement i := by
  constructor
  · rw [hw, hm]
    simp only [regOk_iff, formI_eq_some]
    constructor
    · rintro ⟨⟨a, ha⟩, ⟨b, hb⟩, hi⟩
      exact ⟨_, a, b, ha, hb, hi, rfl⟩
    · rintro ⟨_, a, b, ha, hb, hi, _⟩
      exact ⟨⟨a, ha⟩, ⟨b, hb⟩, hi⟩
  · intro m h
    rw [hm, formI_eq_some] at h
    obtain ⟨_, _, _, _, _, rfl⟩ := h
    exact ho.symm

theorem add (rd rs rt : Nat) : Statement (.add rd rs rt) := statement_formR rfl rfl rfl
theorem sub (rd rs rt : Nat) : Statement (.sub rd rs rt) := statement_formR rfl rfl rfl
theorem addi (rt rs : Nat) (imm : Int) : Statement (.addi rt rs imm) :=
  statement_formI rfl (by simp [Instr.wellFormed]; tauto) rfl
theorem subi (rt rs : Nat) (imm : Int) : Statement (.subi rt rs imm) :=
  statement_formI rfl (by simp [Instr.wellFormed]; tauto) rfl
theorem lw (rt : Nat) (imm : Int) (rs : Nat) : Statement (.lw rt imm rs) :=
  statement_formI rfl (by simp [Instr.wellFormed]; tauto) rfl
theorem sw (rt : Nat) (imm : Int) (rs : Nat) : Statement (.sw rt imm rs) :=
  statement_formI rfl (by simp [Instr.wellFormed]; tauto) rfl
theorem beq (rs rt : Nat) (imm : Int) : Statement (.beq rs rt imm) :=
  statement_formI rfl (by simp [Instr.wellFormed]; tauto) rfl
theorem j (imm : Int) : Statement (.j imm) := by
  constructor
  · simp only [Instr.wellFormed, microOp, formJ_eq_some]
    exact ⟨fun h => ⟨_, h, rfl⟩, fun ⟨_, h, _⟩ => h⟩
  · intro m h
    simp only [microOp, formJ_eq_some] at h
    rw [h.2]; rfl
theorem halt : Statement .halt := by
  constructor
  · simp [Instr.wellFormed, microOp, formH]
  · intro m h
    simp only [microOp, formH_eq_some] at h
    rw [h]; rfl

end Sys2Proof.Laws.MicroOpOfWellFormed
end

