-- ==== Sys2Proof/Tests/Slice0.lean ====
section
/-! SUPPORT. The package's own tests. Expected results come from 95_test_vectors.md (named V-… and P-…) or from the
tables of the rules; the words are written out from R74 and R75. Last, one witness per statement that has hypotheses. -/

namespace Sys2Proof.Tests

open Sys2Proof Sys2Proof.Machine

set_option Elab.async false

/-! ### Helpers -/

/-- Words placed one after another from address `a` on (R84). -/
def wordsFrom (a : Nat) : List Word → InstrStore
  | [] => []
  | w :: ws => (a, w) :: wordsFrom (a + 4) ws

/-- A launch with these words at 0, 4, … and these draws. -/
def launchOf (ws : List Word) (draws : List Latency) : Launch := { imem := wordsFrom 0 ws, draws := draws }

/-- A register file with these registers set, the others 0. -/
def regs (l : List (Reg × Word)) : RegFile := l.foldl (fun x p => x.write p.1 p.2) (Vector.replicate 32 0)

/-- What `p` says of the next state; false where there is none. -/
def after (o : Host.Outcome State Fault Refusal) (p : State → Bool) : Bool :=
  match o with
  | .next t => p t
  | .fault _ => false
  | .refused _ => false

theorem next_of_after {o : Host.Outcome State Fault Refusal} {p : State → Bool} (h : after o p = true) :
    ∃ t, o = .next t ∧ p t = true := by
  unfold after at h
  split at h
  · exact ⟨_, rfl, h⟩
  · simp at h
  · simp at h

/-- There is a next state. -/
def goesOn (o : Host.Outcome State Fault Refusal) : Bool := after o (fun _ => true)

theorem next_of_goesOn {o : Host.Outcome State Fault Refusal} (h : goesOn o = true) : ∃ t, o = .next t :=
  (next_of_after h).imp fun _ ht => ht.1

/-- The state after `k` cycles of a launch. -/
def stateAt (l : Launch) (k : Nat) : State :=
  match runFor k l.initial with
  | .next t => t
  | .fault _ => State.reset
  | .refused _ => State.reset

theorem runFor_stateAt {l : Launch} {k : Nat} (h : goesOn (runFor k l.initial) = true) :
    runFor k l.initial = .next (stateAt l k) := by
  obtain ⟨t, ht⟩ := next_of_goesOn h
  simp [stateAt, ht]

theorem start_of_ok {l : Launch} (h : l.ok = true) : l.start = some l.initial := by simp [Launch.start, h]

/-- The state in which the instruction has been fetched from address 0 and nothing else has happened. -/
def fetched (i : Instr) : State := State.reset.withFetchWord 32 (encode i).toNat

/-- The state in which the only word of a launch has been fetched, with registers and data store preset. -/
def holding (i : Instr) (x : RegFile) (d : Memory) : State := { fetched i with x := x, dmem := d }

/-- The hypotheses of the completion statements, checked. -/
def ready (i : Instr) (a : Word) (s : State) : Bool :=
  decide (s.runState = .running) && decide (s.ifId = some { instr := encode i, pc := a }) && s.idRun (microOp i) &&
  s.invFront && s.invBack && decide (s.arch.pc = some a)

theorem of_ready {i : Instr} {a : Word} {s : State} (h : ready i a s = true) :
    s.decoding i a ∧ s.Inv ∧ s.arch.pc = some a := by
  simp only [ready, Bool.and_eq_true, decide_eq_true_eq] at h
  obtain ⟨⟨⟨⟨⟨h1, h2⟩, h3⟩, h4⟩, h5⟩, h6⟩ := h
  exact ⟨⟨h1, h2, h3⟩, State.inv_of_checks h4 h5, h6⟩

/-! ### Well-formedness: each check refuses (R72) -/

theorem test_wellFormed_accepts_limits :
    (Instr.add 31 0 31).wellFormed = true ∧ (Instr.addi 31 31 (-32768)).wellFormed = true ∧
    (Instr.sw 0 32767 31).wellFormed = true ∧ (Instr.j 0).wellFormed = true ∧
    (Instr.j 67108863).wellFormed = true ∧ Instr.halt.wellFormed = true := by decide
theorem test_wellFormed_add : (Instr.add 32 1 2).wellFormed = false ∧ (Instr.add 3 32 2).wellFormed = false ∧
    (Instr.add 3 1 32).wellFormed = false := by decide
theorem test_wellFormed_sub : (Instr.sub 32 1 2).wellFormed = false ∧ (Instr.sub 3 32 2).wellFormed = false ∧
    (Instr.sub 3 1 32).wellFormed = false := by decide
theorem test_wellFormed_addi : (Instr.addi 32 1 0).wellFormed = false ∧ (Instr.addi 1 32 0).wellFormed = false ∧
    (Instr.addi 1 1 (-32769)).wellFormed = false ∧ (Instr.addi 1 1 32768).wellFormed = false := by decide
theorem test_wellFormed_subi : (Instr.subi 32 1 0).wellFormed = false ∧ (Instr.subi 1 32 0).wellFormed = false ∧
    (Instr.subi 1 1 (-32769)).wellFormed = false ∧ (Instr.subi 1 1 32768).wellFormed = false := by decide
theorem test_wellFormed_lw : (Instr.lw 32 0 1).wellFormed = false ∧ (Instr.lw 1 0 32).wellFormed = false ∧
    (Instr.lw 1 (-32769) 1).wellFormed = false ∧ (Instr.lw 1 32768 1).wellFormed = false := by decide
theorem test_wellFormed_sw : (Instr.sw 32 0 1).wellFormed = false ∧ (Instr.sw 1 0 32).wellFormed = false ∧
    (Instr.sw 1 (-32769) 1).wellFormed = false ∧ (Instr.sw 1 32768 1).wellFormed = false := by decide
theorem test_wellFormed_beq : (Instr.beq 32 1 0).wellFormed = false ∧ (Instr.beq 1 32 0).wellFormed = false ∧
    (Instr.beq 1 1 (-32769)).wellFormed = false ∧ (Instr.beq 1 1 32768).wellFormed = false := by decide
theorem test_wellFormed_j : (Instr.j (-1)).wellFormed = false ∧ (Instr.j 67108864).wellFormed = false := by decide

/-! ### Decoding, with the fields of R74 written out bit by bit -/

theorem test_decode_add : decodeWord 0b000000_00001_00010_00011_00000_100000 = .ok (.add 3 1 2) := by decide
theorem test_decode_sub : decodeWord 0b000000_00010_00011_00001_00000_100010 = .ok (.sub 1 2 3) := by decide
theorem test_decode_addi : decodeWord 0b001000_00000_00001_1111111111111111 = .ok (.addi 1 0 (-1)) := by decide
theorem test_decode_subi : decodeWord 0b111011_00011_00010_0000000000000101 = .ok (.subi 2 3 5) := by decide
theorem test_decode_lw : decodeWord 0b100011_00000_00001_1111111111111100 = .ok (.lw 1 (-4) 0) := by decide
theorem test_decode_sw : decodeWord 0b101011_00010_11111_0111111111111111 = .ok (.sw 31 32767 2) := by decide
theorem test_decode_beq : decodeWord 0b000100_00001_00010_1111111111111101 = .ok (.beq 1 2 (-3)) := by decide
theorem test_decode_j : decodeWord 0b000010_11111111111111111111111110 = .ok (.j 67108862) := by decide
theorem test_decode_halt : decodeWord 0b111111_00000000000000000000000000 = .ok .halt := by decide
/-- V-E16 to V-E22. -/
theorem test_decode_malformed :
    decodeWord 0x00000000 = .error (.malformed 0x00000000) ∧ decodeWord 0x00221821 = .error (.malformed 0x00221821) ∧
    decodeWord 0x00221860 = .error (.malformed 0x00221860) ∧ decodeWord 0xFC000001 = .error (.malformed 0xFC000001) ∧
    decodeWord 0x34000000 = .error (.malformed 0x34000000) ∧ decodeWord 0x0C000000 = .error (.malformed 0x0C000000) ∧
    decodeWord 0xFFFFFFFF = .error (.malformed 0xFFFFFFFF) := by decide
/-- The words of V-E1 to V-E15 and of V-S8. -/
theorem test_encode_words :
    encode (.add 3 1 2) = 0x00221820 ∧ encode (.sub 1 2 3) = 0x00430822 ∧ encode (.add 31 31 31) = 0x03FFF820 ∧
    encode (.add 0 0 0) = 0x00000020 ∧ encode (.addi 1 0 (-1)) = 0x2001FFFF ∧ encode (.addi 31 31 32767) = 0x23FF7FFF ∧
    encode (.subi 1 1 (-32768)) = 0xEC218000 ∧ encode (.subi 2 3 5) = 0xEC620005 ∧ encode (.lw 1 (-4) 0) = 0x8C01FFFC ∧
    encode (.sw 31 (-32768) 31) = 0xAFFF8000 ∧ encode (.beq 0 0 (-1)) = 0x1000FFFF ∧
    encode (.beq 1 2 (-3)) = 0x1022FFFD ∧ encode (.j 0) = 0x08000000 ∧ encode (.j 0x3FFFFFF) = 0x0BFFFFFF ∧
    encode .halt = 0xFC000000 ∧ encode (.sw 1 8 0) = 0xAC010008 := by decide
/-- The pairs of R75 are pairwise disjoint: on the bits both masks fix, two rows differ. -/
theorem test_opcodeMap_disjoint :
    opcodeMap.Pairwise (fun r q => r.pattern &&& q.mask ≠ q.pattern &&& r.mask) := by decide
/-- An ill-formed instruction has no word (R81). -/
theorem test_assemble_refuses : assembleOne (.addi 1 0 32768) = none ∧ assembleOne (.j 67108864) = none := by decide
/-- A table row's bits, and a width no instruction has. -/
theorem test_decodeTableWord : decodeTableWord 32 0x8C010000 = some (.lw 1 0 0) ∧ decodeTableWord 32 0 = none ∧
    decodeTableWord 40 0x8C010000 = none := by decide

/-! ### Control vector (V-D1 to V-D9) and micro-operation fields (R71) -/

theorem test_control_rows :
    controlOf .add = ⟨true, false, false, false, false, false, true, .add⟩ ∧
    controlOf .sub = ⟨true, false, false, false, false, false, true, .sub⟩ ∧
    controlOf .addi = ⟨true, false, false, false, false, true, false, .add⟩ ∧
    controlOf .subi = ⟨true, false, false, false, false, true, false, .sub⟩ ∧
    controlOf .lw = ⟨true, true, false, false, false, true, false, .add⟩ ∧
    controlOf .sw = ⟨false, false, true, false, false, true, false, .add⟩ ∧
    controlOf .beq = ⟨false, false, false, true, false, false, false, .sub⟩ ∧
    controlOf .j = ⟨false, false, false, false, true, false, false, .add⟩ ∧
    controlOf .halt = ⟨false, false, false, false, false, false, false, .add⟩ := by decide
/-- V-E5, V-E7, V-E14. -/
theorem test_microOp_immediates :
    (microOpOfWord 0x2001FFFF).map (fun m => m.imm) = some (some 0xFFFFFFFF) ∧
    (microOpOfWord 0xEC218000).map (fun m => m.imm) = some (some 0xFFFF8000) ∧
    (microOpOfWord 0x0BFFFFFF).map (fun m => (m.imm, m.rs, m.rt, m.rd)) = some (some 0x03FFFFFF, none, none, none) ∧
    (microOpOfWord 0x00221820).map (fun m => (m.imm, m.rs, m.rt, m.rd)) =
      some (none, some 1, some 2, some 3) := by decide

/-! ### One cycle of each instruction, seen in the architectural view -/

/-- V-A2. -/
theorem test_add_wraps : after (step (holding (.add 3 1 2) (regs [(1, 0x7FFFFFFF), (2, 1)]) []))
    (fun t => t.arch.x.read 3 == 0x80000000) = true := by decide +kernel
/-- V-A5. -/
theorem test_add_drops_zero : after (step (holding (.add 0 1 2) (regs [(1, 5), (2, 10)]) []))
    (fun t => t.arch.x == regs [(1, 5), (2, 10)]) = true := by decide +kernel
/-- V-A6. -/
theorem test_sub_order : after (step (holding (.sub 3 1 2) (regs [(1, 5), (2, 7)]) []))
    (fun t => t.arch.x.read 3 == 0xFFFFFFFE) = true := by decide +kernel
/-- V-A9. -/
theorem test_sub_wraps : after (step (holding (.sub 3 1 2) (regs [(1, 0x80000000), (2, 1)]) []))
    (fun t => t.arch.x.read 3 == 0x7FFFFFFF) = true := by decide +kernel
/-- V-A11. -/
theorem test_addi_negative : after (step (holding (.addi 1 0 (-7)) (regs []) []))
    (fun t => t.arch.x.read 1 == 0xFFFFFFF9) = true := by decide +kernel
/-- V-A13. -/
theorem test_addi_wraps : after (step (holding (.addi 1 1 32767) (regs [(1, 0x7FFFFFFF)]) []))
    (fun t => t.arch.x.read 1 == 0x80007FFE) = true := by decide +kernel
/-- V-A15. -/
theorem test_subi_extends_first : after (step (holding (.subi 1 1 (-32768)) (regs []) []))
    (fun t => t.arch.x.read 1 == 0x00008000) = true := by decide +kernel
/-- V-A16. -/
theorem test_subi_negative : after (step (holding (.subi 6 2 (-8)) (regs [(2, 0xFFFFFFF9)]) []))
    (fun t => t.arch.x.read 6 == 1) = true := by decide +kernel
/-- V-M5. -/
theorem test_lw_negative_address : after (step (holding (.lw 1 (-4) 0) (regs []) [(0xFFFFFFFC, 9)]))
    (fun t => t.arch.x.read 1 == 9) = true := by decide +kernel
/-- V-M10: the base is read before the write. -/
theorem test_lw_base_is_destination : after (step (holding (.lw 1 0 1) (regs [(1, 8)]) [(8, 3)]))
    (fun t => t.arch.x.read 1 == 3) = true := by decide +kernel
/-- V-M7: storing 0 leaves no entry. -/
theorem test_sw_zero : after (step (holding (.sw 0 8 0) (regs []) [(8, 5)]))
    (fun t => t.arch.dmem == []) = true := by decide +kernel
/-- V-M8: cells 0 and 1 do not overlap. -/
theorem test_sw_odd_address : after (step (holding (.sw 1 1 0) (regs [(1, 9)]) []))
    (fun t => t.arch.dmem == [(1, 9)] && t.arch.dmem.read 0 == 0) = true := by decide +kernel
/-- V-C4: the target wraps. -/
theorem test_beq_taken_wraps : after (step (holding (.beq 1 0 (-2)) (regs []) []))
    (fun t => t.arch.pc == some 0xFFFFFFFC) = true := by decide +kernel
/-- V-C2 (at address 0: falls through to 4). -/
theorem test_beq_not_taken : after (step (holding (.beq 1 0 3) (regs [(1, 3)]) []))
    (fun t => t.arch.pc == some 4 && t.stats.stallCycles == 1) = true := by decide +kernel
/-- V-C8: the upper bits of the target are not those of `pc`. -/
theorem test_j_absolute : after (step (State.withFetchWord { State.reset with pc := 0x10000000 } 32 0x0BFFFFFF))
    (fun t => t.arch.pc == some 0x0FFFFFFC) = true := by decide +kernel
/-- V-C9. -/
theorem test_j_self : after (step (fetched (.j 0))) (fun t => t.arch.pc == some 0 && t.ifId == none) = true := by
  decide +kernel
/-- R150: no register changes, no address follows. -/
theorem test_halt : after (step (holding .halt (regs [(1, 7)]) [(0, 7)]))
    (fun t => t.arch == { pc := none, x := regs [(1, 7)], dmem := [(0, 7)] }) = true := by decide +kernel

/-! ### Single cycles of the stages and the controller, in states of the programs of 95_test_vectors.md part 3 -/

/-- P-A, straight-line arithmetic. -/
def progA : Launch := launchOf [0x20010005, 0x2002000A, 0x00221820, 0xFC000000] []
/-- P-B, load-use, with the draw 2 and `DMEM0[0] = 7`. -/
def progB : Launch := { launchOf [0x8C010000, 0x00211020, 0xFC000000] [.two] with dmem0 := [(0, 7)] }
/-- P-E, a branch; taken with equal registers. -/
def progE : Launch := launchOf [0x10220001, 0x20030001, 0x20040002, 0xFC000000] []
/-- P-E with `RF0[1] = 1`, `RF0[2] = 2`: not taken. -/
def progE' : Launch := { progE with rf0 := regs [(1, 1), (2, 2)] }
/-- P-F, words after `halt`. -/
def progF : Launch := launchOf [0x20010009, 0xFC000000, 0xAC010000, 0x20020001, 0x08000000, 0x00000000] [.two]
/-- V-H5, a malformed word decoded in the cycle `halt` retires. -/
def progH5 : Launch := launchOf [0x20010009, 0xFC000000, 0x20020001, 0x20030001, 0x00000000] []
/-- V-H1, `halt` alone. -/
def progH : Launch := launchOf [0xFC000000] []
/-- `j 2`, with words at 0 to 8. -/
def progJ : Launch := launchOf [0x08000002, 0x20020001, 0xFC000000] []
/-- `sw $1,8($0)` and `halt`, with `RF0[1] = 9` and the draw 3. -/
def progS : Launch := { launchOf [0xAC010008, 0xFC000000] [.three] with rf0 := regs [(1, 9)] }

/-- P-A cycle 5: `$1` is written, `$2` reaches the `add` by the bypass, `$1` by the write-through. -/
theorem test_bypass_and_writeThrough : after (step (stateAt progA 4))
    (fun t => t.x.read 1 == 5 && t.exMem.map (fun e => e.aluResult) == some 15) = true := by decide +kernel
/-- P-B cycle 3: a load stall. -/
theorem test_load_stall : after (step (stateAt progB 2))
    (fun t => t.ctrlState == .loadStall && t.idEx == none && t.pc == 8 && t.memCyclesLeft == 2 &&
      t.ifId == some { instr := 0x00211020, pc := 4 } && t.stats == ⟨3, 0, 1, 1, 0, 0⟩) = true := by decide +kernel
/-- P-B cycle 4: a wait cycle. -/
theorem test_memory_wait : after (step (stateAt progB 3))
    (fun t => t.ctrlState == .memWait && t.memWb == none && t.memCyclesLeft == 1 && t.pc == 8) = true := by
  decide +kernel
/-- P-B cycle 6: the perform cycle. -/
theorem test_perform : after (step (stateAt progB 5))
    (fun t => t.memWb.map (fun w => w.memData) == some 7 && t.ctrlState == .running && t.pc == 12) = true := by
  decide +kernel
/-- P-E cycle 2: a branch stall. -/
theorem test_branch_stall : after (step (stateAt progE 1))
    (fun t => t.ctrlState == .branchStall && t.ifId == none && t.pc == 4) = true := by decide +kernel
/-- P-E cycle 3: taken, the target is fetched in the same cycle. -/
theorem test_branch_taken : after (step (stateAt progE 2))
    (fun t => t.ifId == some { instr := 0x20040002, pc := 8 } && t.pc == 12 && t.stats.branchesTaken == 1) = true := by
  decide +kernel
/-- P-E cycle 3, the other run: not taken. -/
theorem test_branch_not_taken : after (step (stateAt progE' 2))
    (fun t => t.ifId == some { instr := 0x20030001, pc := 4 } && t.pc == 8 && t.stats.branchesTaken == 0) = true := by
  decide +kernel
/-- P-F cycle 6: `halt` is consumed in a wait cycle of the `sw` after it. -/
theorem test_halt_in_wait_cycle : after (step (stateAt progF 5))
    (fun t => t.runState == .halted && t.ctrlState == .halted && t.memCyclesLeft == 1 && t.dmem == [] && t.pc == 20 &&
      t.stats == ⟨6, 1, 0, 0, 0, 1⟩ && t.memWb == none) = true := by decide +kernel
/-- V-H5: the fault wins. -/
theorem test_fault_wins : step (stateAt progH5 5) = .fault (.malformedInstruction 0 16) := by
  have h : (match step (stateAt progH5 5) with
    | .fault r => decide (r = .malformedInstruction 0 16) | .next _ => false | .refused _ => false) = true := by
    decide +kernel
  split at h
  · rename_i r hr; rw [hr]; simpa using h
  · simp at h
  · simp at h
/-- V-Z2: an `addi` whose destination is the load's stalls too (needlessly). -/
theorem test_needless_load_stall : (stateAt (launchOf [0x8C010000, 0x20010005] []) 2).loadUse
    (microOpOfWord 0x20010005) = true := by decide +kernel
/-- V-Z3: register 0 is not exempt. -/
theorem test_load_stall_register_zero : (stateAt (launchOf [0x8C000000, 0x00001820] []) 2).loadUse
    (microOpOfWord 0x00001820) = true := by decide +kernel
/-- V-Z5: `rd` of the younger is not compared. -/
theorem test_no_load_stall_on_rd : (stateAt (launchOf [0x8C010000, 0x00430820] []) 2).loadUse
    (microOpOfWord 0x00430820) = false := by decide +kernel
/-- V-H1: the last cycle and the statistics. -/
theorem test_halt_ends : (stateAt progH 5).finalReport =
    some { stats := ⟨5, 0, 0, 0, 0, 0⟩, x := regs [], dmem := [] } := by decide +kernel
/-- R42: a store's perform cycle drives address, data and strobe; its wait cycle before it the store value alone. -/
theorem test_ports_store : (stateAt progS 6).ports.dmemWe = true ∧ (stateAt progS 6).ports.dmemAddr = some 8 ∧
    (stateAt progS 6).ports.dmemWdata = some 9 ∧ (stateAt progS 5).ports.dmemWe = false ∧
    (stateAt progS 5).ports.dmemAddr = none ∧ (stateAt progS 5).ports.dmemWdata = some 9 := by decide +kernel
/-- R42, R164: the fetch address in a cycle with a redirect (P-E cycle 3), and the word there. -/
theorem test_ports_fetch : (stateAt progE 2).ports.imemAddr = some 8 ∧
    (stateAt progE 2).portInputs.imemWord = some 0x20040002 := by decide +kernel
/-- R42, R176: `lat_in` is sampled in the cycle the `lw` of P-B executes, not in the next; its cell is read in cycle 6. -/
theorem test_ports_load : (stateAt progB 2).portInputs.latIn = some .two ∧ (stateAt progB 3).portInputs.latIn = none ∧
    (stateAt progB 5).portInputs.dmemRdata = some 7 ∧ (stateAt progB 5).ports.dmemRe = true := by decide +kernel
/-- A halted machine with an `lw` in ID_EX samples no draw and asserts no strobe (R35). -/
theorem test_ports_halted :
    (stateAt (launchOf [0xFC000000, 0x00000020, 0x00000020, 0x8C010000] []) 5).idEx.map (fun i => i.op) = some .lw ∧
    (stateAt (launchOf [0xFC000000, 0x00000020, 0x00000020, 0x8C010000] []) 5).ports.halted = true ∧
    (stateAt (launchOf [0xFC000000, 0x00000020, 0x00000020, 0x8C010000] []) 5).portInputs.latIn = none ∧
    (stateAt (launchOf [0xFC000000, 0x00000020, 0x00000020, 0x8C010000] []) 5).ports.imemAddr = none := by
  decide +kernel
/-- R42, R44: reset with the default parameters, and refused with RF0[0] = 5. -/
theorem test_reset_edge :
    ((stateAt progA 7).applyReset progA).map (fun t => (t.pc, t.x, t.stats.totalCycles, t.imem)) =
      some (0, regs [], 0, progA.imem) ∧
    (stateAt progA 7).applyReset { progA with rf0 := Vector.replicate 32 5 } = none := by decide +kernel
/-- V-S9: a `beq` at 8 to 24, a `beq` at 8 to 0, a `j` to 8. -/
theorem test_labels : branchOffset 24 8 = 3 ∧ branchOffset 0 8 = -3 ∧ jumpIndex 8 = 2 := by decide

/-! ### Witnesses: the hypotheses of each statement, met together

A statement about `t` with `step s = .next t` (or `exec i s = .next t`) has a state `s` from which the step answers a
next state. -/

theorem witness_EncodeDecodeInverse :
    (Instr.add 31 0 31).wellFormed = true ∧ decodeWord 0xAFFF8000 = .ok (.sw 31 (-32768) 31) ∧
    imm16Ok (-32768) = true ∧ imm16Ok 32767 = true ∧ idx26Ok 0 = true ∧ idx26Ok 67108863 = true := by decide
theorem witness_DecodeFollowsOpcodeMap :
    decodeWord 0x00221820 = .ok (.add 3 1 2) ∧ (⟨"add", 0x00000020, 0xFC0007FF⟩ : OpcodeRow) ∈ opcodeMap ∧
    (⟨"add", 0x00000020, 0xFC0007FF⟩ : OpcodeRow).selects 0x00221820 = true ∧
    ∀ r ∈ opcodeMap, r.selects 0x00221821 = false := by decide
theorem witness_MicroOpFieldsAreWordBits : (microOpOfWord 0x03FFF820).isSome = true ∧
    (microOpOfWord 0xEC218000).isSome = true ∧ (microOpOfWord 0x0BFFFFFF).isSome = true ∧
    (microOpOfWord 0xFC000000).isSome = true := by decide

/-- With two older instructions in flight, with destination 0, and with index 31 throughout. -/
theorem witness_AddCompletes : (ready (.add 3 1 2) 8 (stateAt progA 3) = true ∧
    ready (.add 0 1 2) 0 (fetched (.add 0 1 2)) = true ∧ ready (.add 31 31 31) 0 (fetched (.add 31 31 31)) = true) := by
  decide +kernel
theorem witness_SubCompletes : ready (.sub 3 1 2) 0 (fetched (.sub 3 1 2)) = true ∧
    ready (.sub 0 1 2) 0 (fetched (.sub 0 1 2)) = true ∧ ready (.sub 31 31 31) 0 (fetched (.sub 31 31 31)) = true := by
  decide +kernel
theorem witness_AddiCompletes : ready (.addi 2 0 10) 4 (stateAt progA 2) = true ∧
    ready (.addi 0 1 (-32768)) 0 (fetched (.addi 0 1 (-32768))) = true ∧
    ready (.addi 31 31 32767) 0 (fetched (.addi 31 31 32767)) = true := by decide +kernel
theorem witness_SubiCompletes : ready (.subi 1 1 1) 0 (fetched (.subi 1 1 1)) = true ∧
    ready (.subi 0 1 (-32768)) 0 (fetched (.subi 0 1 (-32768))) = true ∧
    ready (.subi 31 31 32767) 0 (fetched (.subi 31 31 32767)) = true := by decide +kernel
theorem witness_LwCompletes : ready (.lw 1 0 0) 0 (stateAt progB 1) = true ∧
    ready (.lw 0 (-32768) 1) 0 (fetched (.lw 0 (-32768) 1)) = true ∧
    ready (.lw 31 32767 31) 0 (fetched (.lw 31 32767 31)) = true := by decide +kernel
theorem witness_SwCompletes : ready (.sw 1 8 0) 0 (stateAt progS 1) = true ∧
    ready (.sw 0 (-32768) 1) 0 (fetched (.sw 0 (-32768) 1)) = true ∧
    ready (.sw 31 32767 31) 0 (fetched (.sw 31 32767 31)) = true := by decide +kernel
/-- Taken and not taken. -/
theorem witness_BeqCompletes : ready (.beq 1 2 1) 0 (stateAt progE 1) = true ∧
    ready (.beq 1 2 1) 0 (stateAt progE' 1) = true ∧
    ready (.beq 0 31 (-32768)) 0 (fetched (.beq 0 31 (-32768))) = true := by decide +kernel
theorem witness_JCompletes : ready (.j 2) 0 (stateAt progJ 1) = true ∧ ready (.j 0) 0 (fetched (.j 0)) = true ∧
    ready (.j 67108863) 0 (fetched (.j 67108863)) = true := by decide +kernel
theorem witness_HaltCompletes : ready .halt 12 (stateAt progA 4) = true ∧ ready .halt 0 (stateAt progH 1) = true := by
  decide +kernel

/-- What `ready` checks are the hypotheses themselves, here with those of `AddCompletes`. -/
theorem witness_ready_means : (stateAt progA 3).decoding (.add 3 1 2) 8 ∧ (stateAt progA 3).Inv ∧
    (stateAt progA 3).arch.pc = some 8 := of_ready witness_AddCompletes.1

/-- A cycle that retires `addi $1`, performs nothing and draws nothing. -/
theorem witness_ExecFrame : ∃ t, exec .halt (stateAt progA 4) = .next t :=
  next_of_goesOn (by decide +kernel)

/-- Held by a load-use hazard, and by a memory wait. -/
theorem witness_HeldInstructionHasNoEffect :
    ((Instr.add 2 1 1).wellFormed = true ∧ (stateAt progB 2).Inv ∧ (stateAt progB 2).runState = .running ∧
      (stateAt progB 2).ifId = some { instr := encode (.add 2 1 1), pc := 4 } ∧
      (stateAt progB 2).idRun (microOp (.add 2 1 1)) = false) ∧
    ((stateAt progB 3).Inv ∧ (stateAt progB 3).runState = .running ∧
      (stateAt progB 3).ifId = some { instr := encode (.add 2 1 1), pc := 4 } ∧
      (stateAt progB 3).idRun (microOp (.add 2 1 1)) = false) :=
  ⟨⟨by decide, State.inv_of_checks (by decide +kernel) (by decide +kernel), by decide +kernel, by decide +kernel,
      by decide +kernel⟩,
    State.inv_of_checks (by decide +kernel) (by decide +kernel), by decide +kernel, by decide +kernel,
    by decide +kernel⟩

theorem witness_IllFormedRaisesMalformed : (Instr.addi 1 0 32768).wellFormed = false ∧
    (fetched (.addi 1 0 0)).runState = .running ∧ (fetched (.addi 1 0 0)).memWait = false ∧
    (fetched (.addi 1 0 0)).ifId = some { instr := 0x20010000, pc := 0 } := by decide +kernel
theorem witness_WellFormedNeverStops : (Instr.subi 31 0 (-32768)).wellFormed = true := by decide
theorem witness_StepRunsDecoded : (fetched (.sub 1 2 3)).ifId = some { instr := 0x00430822, pc := 0 } ∧
    decodeWord 0x00430822 = .ok (.sub 1 2 3) := by decide +kernel
theorem witness_WordAtPcIsFetchedThenRun : (Instr.lw 1 0 0).wellFormed = true ∧ progB.initial.runState = .running ∧
    progB.initial.halting = false ∧ progB.initial.memWait = false ∧ progB.initial.ifId = none ∧
    progB.initial.redirect = none ∧ progB.initial.imem.fetch progB.initial.pc = some (encode (.lw 1 0 0)) := by
  decide +kernel
theorem witness_MalformedFaultExactly : step (stateAt progH5 5) = .fault (.malformedInstruction 0 16) :=
  test_fault_wins
theorem witness_FaultWinsOverHalt : (stateAt progH5 5).runState = .running ∧
    ((stateAt progH5 5).memWb.map (fun w => w.op)) = some .halt ∧ (stateAt progH5 5).memWait = false ∧
    (stateAt progH5 5).ifId = some { instr := 0, pc := 16 } ∧ decodeWord 0 = .error (.malformed 0) := by
  decide +kernel
theorem witness_StoppedMachineStays : (stateAt progH 5).runState ≠ .running := by decide +kernel

/-- With counter 1 and with counter 3; in the first a register-writing instruction is in MEM_WB. -/
theorem witness_MemoryWaitCycle :
    ((stateAt progS 5).runState = .running ∧ (stateAt progS 5).exMem.isSome = true ∧
      (stateAt progS 5).memCyclesLeft = 1) ∧
    ((stateAt progS 3).runState = .running ∧ (stateAt progS 3).exMem.isSome = true ∧
      (stateAt progS 3).memCyclesLeft = 3) ∧
    ((stateAt progF 5).runState = .running ∧ (stateAt progF 5).exMem.isSome = true ∧
      (stateAt progF 5).memCyclesLeft = 2 ∧ (stateAt progF 5).memWb.isSome = true) := by decide +kernel
theorem witness_LoadUseExactly : (stateAt progB 2).runState = .running ∧
    after (step (stateAt progB 2)) (fun t => t.stats.loadStalls == 1) = true ∧
    after (step (stateAt progA 2)) (fun t => t.stats.loadStalls == 0) = true := by decide +kernel
theorem witness_LoadStallCycle : (stateAt progB 2).runState = .running ∧ (stateAt progB 2).memWait = false ∧
    (stateAt progB 2).idEx.map (fun i => (i.ctrl, i.dest)) = some (controlOf .lw, some 1) ∧
    (stateAt progB 2).ifId = some { instr := 0x00211020, pc := 4 } ∧
    (microOpOfWord 0x00211020).map (fun m => m.rs) = some (some 1) := by decide +kernel

/-- A word at the fetch address, with and without a redirect, and none there. -/
theorem witness_FetchWhenItRuns :
    ((stateAt progA 1).runState = .running ∧ goesOn (step (stateAt progA 1)) = true ∧
      (stateAt progA 1).ifRun (stateAt progA 1).inDecode = true ∧ (stateAt progA 1).redirect = none ∧
      ((stateAt progA 1).imem.fetch 4).isSome = true) ∧
    ((stateAt progE 2).ifRun (stateAt progE 2).inDecode = true ∧ (stateAt progE 2).redirect = some 8) ∧
    (goesOn (step (stateAt progA 4)) = true ∧ (stateAt progA 4).ifRun (stateAt progA 4).inDecode = true ∧
      (stateAt progA 4).imem.fetch ((stateAt progA 4).redirect.getD (stateAt progA 4).pc) = none) := by
  decide +kernel
/-- `$2` by the bypass, `$1` by the write-through, `$3` from the register file. -/
theorem witness_OperandBypassAndWriteThrough :
    (stateAt progA 4).exMem.map (fun e => (e.ctrl.regWrite, e.ctrl.memRead, e.dest)) = some (true, false, some 2) ∧
    (stateAt progA 4).memWb.map (fun w => (w.ctrl.regWrite, w.dest)) = some (true, some 1) := by decide +kernel
/-- Register operands, and an immediate. -/
theorem witness_ExecuteFillsExMem :
    ((stateAt progA 4).runState = .running ∧ (stateAt progA 4).memWait = false ∧
      (stateAt progA 4).idEx.map (fun i => (i.ctrl.aluSrc, i.rd)) = some (false, some 3) ∧
      goesOn (step (stateAt progA 4)) = true) ∧
    ((stateAt progA 2).runState = .running ∧ (stateAt progA 2).memWait = false ∧
      (stateAt progA 2).idEx.map (fun i => (i.ctrl.aluSrc, i.imm)) = some (true, some 5) ∧
      goesOn (step (stateAt progA 2)) = true) := by decide +kernel
/-- Taken to a present address, taken to an absent one, and not taken. -/
theorem witness_BranchResolves :
    ((stateAt progE 2).Inv ∧ (stateAt progE 2).runState = .running ∧ (stateAt progE 2).memWait = false ∧
      (stateAt progE 2).idEx.map (fun i => (i.op, i.rs, i.rt, i.imm, i.pc)) =
        some (.beq, some 1, some 2, some 1, 0) ∧
      goesOn (step (stateAt progE 2)) = true ∧ (stateAt progE 2).operand 1 = (stateAt progE 2).operand 2) ∧
    ((stateAt progE' 2).Inv ∧ (stateAt progE' 2).runState = .running ∧ (stateAt progE' 2).memWait = false ∧
      (stateAt progE' 2).idEx = (stateAt progE 2).idEx ∧ goesOn (step (stateAt progE' 2)) = true ∧
      (stateAt progE' 2).operand 1 ≠ (stateAt progE' 2).operand 2) ∧
    ((stateAt (launchOf [0x1020FFFE] []) 2).Inv ∧ goesOn (step (stateAt (launchOf [0x1020FFFE] []) 2)) = true ∧
      (stateAt (launchOf [0x1020FFFE] []) 2).redirect = some 0xFFFFFFFC) :=
  ⟨⟨State.inv_of_checks (by decide +kernel) (by decide +kernel), by decide +kernel, by decide +kernel,
      by decide +kernel, by decide +kernel, by decide +kernel⟩,
    ⟨State.inv_of_checks (by decide +kernel) (by decide +kernel), by decide +kernel, by decide +kernel,
      by decide +kernel, by decide +kernel, by decide +kernel⟩,
    State.inv_of_checks (by decide +kernel) (by decide +kernel), by decide +kernel, by decide +kernel⟩
/-- To a present address, and to an absent one. -/
theorem witness_JumpResolves :
    ((stateAt progJ 2).Inv ∧ (stateAt progJ 2).runState = .running ∧ (stateAt progJ 2).memWait = false ∧
      (stateAt progJ 2).idEx.map (fun i => (i.op, i.imm)) = some (.j, some 2) ∧
      goesOn (step (stateAt progJ 2)) = true ∧ (stateAt progJ 2).imem.fetch 8 = some 0xFC000000) ∧
    ((stateAt (launchOf [0x0BFFFFFF] []) 2).Inv ∧ goesOn (step (stateAt (launchOf [0x0BFFFFFF] []) 2)) = true ∧
      (stateAt (launchOf [0x0BFFFFFF] []) 2).imem.fetch 0x0FFFFFFC = none) :=
  ⟨⟨State.inv_of_checks (by decide +kernel) (by decide +kernel), by decide +kernel, by decide +kernel,
      by decide +kernel, by decide +kernel, by decide +kernel⟩,
    State.inv_of_checks (by decide +kernel) (by decide +kernel), by decide +kernel, by decide +kernel⟩
/-- A load with a supplied draw, a store, and an instruction that draws nothing. -/
theorem witness_LatencyDrawnOncePerMemoryOp :
    ((stateAt progB 2).runState = .running ∧ (stateAt progB 2).memWait = false ∧
      goesOn (step (stateAt progB 2)) = true ∧ (stateAt progB 2).idEx.map (fun i => i.ctrl.memRead) = some true ∧
      (stateAt progB 2).latencyInputs = [.two]) ∧
    ((stateAt progS 2).idEx.map (fun i => i.ctrl.memWrite) = some true ∧ goesOn (step (stateAt progS 2)) = true) ∧
    ((stateAt progA 2).idEx.map (fun i => i.ctrl.memRead || i.ctrl.memWrite) = some false ∧
      goesOn (step (stateAt progA 2)) = true) := by decide +kernel
/-- An empty EX_MEM, a load performed, and a store performed. -/
theorem witness_MemoryStagePerforms :
    ((stateAt progA 1).runState = .running ∧ (stateAt progA 1).exMem = none ∧
      goesOn (step (stateAt progA 1)) = true) ∧
    ((stateAt progB 5).exMem.map (fun e => e.ctrl.memRead) = some true ∧ (stateAt progB 5).memCyclesLeft = 0 ∧
      goesOn (step (stateAt progB 5)) = true) ∧
    ((stateAt progS 6).exMem.map (fun e => e.ctrl.memWrite) = some true ∧ (stateAt progS 6).memCyclesLeft = 0 ∧
      goesOn (step (stateAt progS 6)) = true) := by decide +kernel
/-- An empty MEM_WB, an ALU result, a loaded value. -/
theorem witness_WritebackWritesDestination :
    ((stateAt progA 1).runState = .running ∧ (stateAt progA 1).memWb = none ∧
      goesOn (step (stateAt progA 1)) = true) ∧
    ((stateAt progA 4).memWb.map (fun w => (w.ctrl.regWrite, w.ctrl.memRead, w.dest)) = some (true, false, some 1) ∧
      goesOn (step (stateAt progA 4)) = true) ∧
    ((stateAt progB 6).memWb.map (fun w => (w.ctrl.memRead, w.dest)) = some (true, some 1) ∧
      goesOn (step (stateAt progB 6)) = true) := by decide +kernel
theorem witness_RunEndsWhenHaltRetires :
    ((stateAt progH 4).runState = .running ∧ (stateAt progH 4).memWb.map (fun w => w.op) = some .halt ∧
      goesOn (step (stateAt progH 4)) = true) ∧
    ((stateAt progH 1).runState = .running ∧ (stateAt progH 1).memWb = none ∧
      goesOn (step (stateAt progH 1)) = true) := by decide +kernel
theorem witness_CountersFollowEvents : (stateAt progE 2).runState = .running ∧
    goesOn (step (stateAt progE 2)) = true := by decide +kernel
/-- The five classes of a cycle. -/
theorem witness_ControllerClassifiesCycle :
    after (step (stateAt progF 5)) (fun t => t.ctrlState == .halted) = true ∧
    after (step (stateAt progB 3)) (fun t => t.ctrlState == .memWait) = true ∧
    after (step (stateAt progB 2)) (fun t => t.ctrlState == .loadStall) = true ∧
    after (step (stateAt progJ 1)) (fun t => t.ctrlState == .branchStall) = true ∧
    after (step (stateAt progA 1)) (fun t => t.ctrlState == .running) = true := by decide +kernel
theorem witness_InstructionStoreConstant : ∃ t, step (stateAt progS 6) = .next t :=
  next_of_goesOn (by decide +kernel)
/-- V-H6: `addi $1,$0,1` alone, after it has retired. -/
theorem witness_RunOffProgramOnlyCountsCycles : (stateAt (launchOf [0x20010001] []) 5).runState = .running ∧
    (stateAt (launchOf [0x20010001] []) 5).drained = true ∧
    (stateAt (launchOf [0x20010001] []) 5).imem.fetch (stateAt (launchOf [0x20010001] []) 5).pc = none := by
  decide +kernel

/-- A launch that starts, and one with `RF0[0] = 5` (no write can put it there, so the file is built directly). -/
theorem witness_LaunchStartsInResetState : progE'.start = some progE'.initial ∧
    ({ progE with rf0 := Vector.replicate 32 5 } : Launch).rf0.read 0 ≠ 0 :=
  ⟨start_of_ok (by decide +kernel), by decide +kernel⟩
theorem witness_ProgramPlacedAtMultiplesOfFour :
    placeProgram [.addi 1 0 5, .halt] = some [(0, 0x20010005), (4, 0xFC000000)] := by decide +kernel
theorem witness_ResolvedLabelsLeadToTarget : ((0 : Int) - 8) % 4 = 0 ∧ (24 : Int) % 4 = 0 := by decide
theorem witness_InvariantAtLaunch : progA.start = some progA.initial := start_of_ok (by decide +kernel)
theorem witness_InvariantKept : (stateAt progB 5).Inv ∧ ∃ t, step (stateAt progB 5) = .next t :=
  ⟨State.inv_of_checks (by decide +kernel) (by decide +kernel), next_of_goesOn (by decide +kernel)⟩

/-- For `ZeroRegisterAlways` and `PcAlwaysAligned`: a launch and a run of it. -/
theorem witness_ZeroRegisterAlways : progA.start = some progA.initial ∧
    runFor 4 progA.initial = .next (stateAt progA 4) :=
  ⟨start_of_ok (by decide +kernel), runFor_stateAt (by decide +kernel)⟩
theorem witness_PcAlwaysAligned : progE.start = some progE.initial ∧
    runFor 3 progE.initial = .next (stateAt progE 3) :=
  ⟨start_of_ok (by decide +kernel), runFor_stateAt (by decide +kernel)⟩
/-- EX_MEM empty, and EX_MEM with an instruction that is no memory operation. -/
theorem witness_IdleLatencyCounter : progA.start = some progA.initial ∧
    runFor 1 progA.initial = .next (stateAt progA 1) ∧ (stateAt progA 1).exMem = none ∧
    runFor 3 progA.initial = .next (stateAt progA 3) ∧
    (stateAt progA 3).exMem.map (fun e => e.op) = some .addi :=
  ⟨start_of_ok (by decide +kernel), runFor_stateAt (by decide +kernel), by decide +kernel,
    runFor_stateAt (by decide +kernel), by decide +kernel⟩
theorem witness_NothingFetchedBehindTransfer : progE.start = some progE.initial ∧
    runFor 2 progE.initial = .next (stateAt progE 2) ∧ (stateAt progE 2).idEx.map (fun i => i.op) = some .beq ∧
    progJ.start = some progJ.initial ∧ runFor 2 progJ.initial = .next (stateAt progJ 2) ∧
    (stateAt progJ 2).idEx.map (fun i => i.op) = some .j :=
  ⟨start_of_ok (by decide +kernel), runFor_stateAt (by decide +kernel), by decide +kernel,
    start_of_ok (by decide +kernel), runFor_stateAt (by decide +kernel), by decide +kernel⟩
/-- `lw $1,0($0); add $3,$2,$2`: in the load's perform cycle the `add` is in ID_EX. -/
theorem witness_LoadNeverNeedsBypass : ∃ l : Launch, l.start = some l.initial ∧
    runFor 5 l.initial = .next (stateAt l 5) ∧
    (stateAt l 5).exMem.map (fun e => (e.op, e.dest)) = some (.lw, some 1) ∧ (stateAt l 5).memWait = false ∧
    (stateAt l 5).idEx.map (fun i => i.rs) = some (some 2) :=
  ⟨launchOf [0x8C010000, 0x00421820] [.two], start_of_ok (by decide +kernel), runFor_stateAt (by decide +kernel),
    by decide +kernel, by decide +kernel, by decide +kernel⟩

theorem witness_ArchOfDrainedMachine : progA.initial.runState = .running ∧ progA.initial.drained = true ∧
    (stateAt progH 5).runState = .halted := by decide +kernel
/-- A cycle that takes an instruction, and one that holds it. -/
theorem witness_StepRefinesSequential :
    ((stateAt progA 3).Inv ∧ (∃ t, step (stateAt progA 3) = .next t) ∧
      (stateAt progA 3).ifId = some { instr := 0x00221820, pc := 8 } ∧ decodeWord 0x00221820 = .ok (.add 3 1 2) ∧
      (stateAt progA 3).idRun (stateAt progA 3).inDecode = true ∧ (stateAt progA 3).arch.pc = some 8) ∧
    ((stateAt progB 3).Inv ∧ (∃ t, step (stateAt progB 3) = .next t) ∧
      (stateAt progB 3).idRun (stateAt progB 3).inDecode = false) :=
  ⟨⟨State.inv_of_checks (by decide +kernel) (by decide +kernel), next_of_goesOn (by decide +kernel), by decide +kernel,
      by decide, by decide +kernel, by decide +kernel⟩,
    State.inv_of_checks (by decide +kernel) (by decide +kernel), next_of_goesOn (by decide +kernel), by decide +kernel⟩
/-- P-F after cycle 3: `halt` is past Decode, a `sw` behind it. -/
theorem witness_NothingAfterHaltHasEffect : (stateAt progF 3).Inv ∧ (stateAt progF 3).arch.pc = none ∧
    ∃ t, runFor 3 (stateAt progF 3) = .next t ∧ t.runState = .halted := by
  refine ⟨State.inv_of_checks (by decide +kernel) (by decide +kernel), by decide +kernel, ?_⟩
  obtain ⟨t, h, hp⟩ := next_of_after (o := runFor 3 (stateAt progF 3)) (p := fun t => decide (t.runState = .halted))
    (by decide +kernel)
  exact ⟨t, h, of_decide_eq_true hp⟩
theorem witness_HaltedRunIsSequential : progH.start = some progH.initial ∧
    runFor 5 progH.initial = .next (stateAt progH 5) ∧ (stateAt progH 5).runState = .halted :=
  ⟨start_of_ok (by decide +kernel), runFor_stateAt (by decide +kernel), by decide +kernel⟩
theorem witness_PipelineReachesSequentialHalt : progH.start = some progH.initial ∧
    Arch.haltsAfter progH.imem 0 progH.arch { progH.arch with pc := none } ∧
    ∀ k r, runFor k progH.initial ≠ .fault r := by
  refine ⟨start_of_ok (by decide +kernel), ⟨by decide +kernel, rfl⟩, fun k r h => ?_⟩
  have h5 : runFor 5 progH.initial = .next (stateAt progH 5) := runFor_stateAt (by decide +kernel)
  by_cases hk : 5 ≤ k
  · obtain ⟨n, rfl⟩ := Nat.exists_eq_add_of_le hk
    rw [runFor_add n h5, runFor_of_stopped (by decide +kernel)] at h
    simp at h
  · have hg : ∀ j : Fin 5, goesOn (runFor j.val progH.initial) = true := by decide +kernel
    obtain ⟨t, ht⟩ := next_of_goesOn (hg ⟨k, by omega⟩)
    rw [h] at ht
    simp at ht
/-- P-B with draw 2 and with draw 3: 10 and 11 cycles. -/
theorem witness_LatencyNeverChangesResult : ∃ l l' : Launch, l.imem = l'.imem ∧ l.dmem0 = l'.dmem0 ∧ l.rf0 = l'.rf0 ∧
    l.resetPc = l'.resetPc ∧ l.start = some l.initial ∧ l'.start = some l'.initial ∧
    runFor 10 l.initial = .next (stateAt l 10) ∧ runFor 11 l'.initial = .next (stateAt l' 11) ∧
    (stateAt l 10).runState = .halted ∧ (stateAt l' 11).runState = .halted :=
  ⟨progB, { progB with draws := [.three] }, rfl, rfl, rfl, rfl, start_of_ok (by decide +kernel),
    start_of_ok (by decide +kernel), runFor_stateAt (by decide +kernel), runFor_stateAt (by decide +kernel),
    by decide +kernel, by decide +kernel⟩

/-- The four forms, each with nothing older in the pipeline. -/
theorem witness_ArithmeticPath :
    (ready (.add 3 1 2) 0 (fetched (.add 3 1 2)) = true ∧ (fetched (.add 3 1 2)).quiet = true ∧
      goesOn (runFor 4 (fetched (.add 3 1 2))) = true) ∧
    (ready (.sub 3 1 2) 0 (fetched (.sub 3 1 2)) = true ∧ (fetched (.sub 3 1 2)).quiet = true ∧
      goesOn (runFor 4 (fetched (.sub 3 1 2))) = true) ∧
    (ready (.addi 1 0 5) 0 (fetched (.addi 1 0 5)) = true ∧ (fetched (.addi 1 0 5)).quiet = true ∧
      goesOn (runFor 4 (fetched (.addi 1 0 5))) = true) ∧
    (ready (.subi 1 1 1) 0 (fetched (.subi 1 1 1)) = true ∧ (fetched (.subi 1 1 1)).quiet = true ∧
      goesOn (runFor 4 (fetched (.subi 1 1 1))) = true) := by decide +kernel
theorem witness_LoadPath : ready (.lw 1 0 0) 0 (stateAt progB 1) = true ∧ (stateAt progB 1).quiet = true ∧
    goesOn (runFor (4 + (stateAt progB 1).draw.cycles) (stateAt progB 1)) = true := by decide +kernel
theorem witness_StorePath : ready (.sw 1 8 0) 0 (stateAt progS 1) = true ∧ (stateAt progS 1).quiet = true ∧
    goesOn (runFor (2 + (stateAt progS 1).draw.cycles) (stateAt progS 1)) = true ∧
    goesOn (runFor (3 + (stateAt progS 1).draw.cycles) (stateAt progS 1)) = true := by decide +kernel
theorem witness_HaltPath : ready .halt 0 (stateAt progH 1) = true ∧ (stateAt progH 1).quiet = true ∧
    goesOn (runFor 4 (stateAt progH 1)) = true := by decide +kernel

end Sys2Proof.Tests
end

/-! PROOFS. The MicroOp of a word is the one made of the word's own fields (R71, R76, R81). -/

namespace Sys2Proof

/-- Inversion of the decoder (R75, R76): the nine answers, each with the condition on the word under which it is given. -/
theorem decodeWord_cases {w : Word} {i : Instr} (h : decodeWord w = .ok i) :
    ((op6Of w = 0x00 ∧ shamtOf w = 0 ∧ functOf w = 0x20) ∧ i = .add (rdOf w).toNat (rsOf w).toNat (rtOf w).toNat) ∨
    ((op6Of w = 0x00 ∧ shamtOf w = 0 ∧ functOf w = 0x22) ∧ i = .sub (rdOf w).toNat (rsOf w).toNat (rtOf w).toNat) ∨
    (op6Of w = 0x08 ∧ i = .addi (rtOf w).toNat (rsOf w).toNat (immOf w)) ∨
    (op6Of w = 0x3B ∧ i = .subi (rtOf w).toNat (rsOf w).toNat (immOf w)) ∨
    (op6Of w = 0x23 ∧ i = .lw (rtOf w).toNat (immOf w) (rsOf w).toNat) ∨
    (op6Of w = 0x2B ∧ i = .sw (rtOf w).toNat (immOf w) (rsOf w).toNat) ∨
    (op6Of w = 0x04 ∧ i = .beq (rsOf w).toNat (rtOf w).toNat (immOf w)) ∨
    (op6Of w = 0x02 ∧ i = .j (idxOf w)) ∨
    (w = 0xFC000000 ∧ i = .halt) := by
  unfold decodeWord at h
  repeat' split at h
  all_goals cases h
  all_goals simp_all only [true_and, true_or, or_true]

end Sys2Proof

namespace Sys2Proof.Machine

/-- The MicroOp with opcode `op` whose fields are those of the word: which fields are present is R71's table, the
immediate is extended as R81 says. -/
def MicroOp.ofFields (op : Op) (w : Word) : MicroOp :=
  match op with
  | .add | .sub =>
    ⟨op, some (rsOf w).toFin, some (rtOf w).toFin, some (rdOf w).toFin, none, controlOf op⟩
  | .addi | .subi | .lw | .sw | .beq =>
    ⟨op, some (rsOf w).toFin, some (rtOf w).toFin, none, some (sext16 (imm16Of w)), controlOf op⟩
  | .j => ⟨op, none, none, none, some (zext26 (idx26Of w)), controlOf op⟩
  | .halt => ⟨op, none, none, none, none, controlOf op⟩

/-! ### Operand forms of a word's fields -/

theorem sext16_imm16Of (w : Word) : sext16 (imm16Of w) = BitVec.ofInt 32 (immOf w) := rfl

theorem zext26_idx26Of (w : Word) : zext26 (idx26Of w) = BitVec.ofInt 32 (idxOf w) :=
  ((BitVec.ofInt_natCast 32 (idx26Of w).toNat).trans (BitVec.ofNat_toNat 32 (idx26Of w))).symm

theorem formR_of_fields (op : Op) (w : Word) :
    formR op (rdOf w).toNat (rsOf w).toNat (rtOf w).toNat =
      some ⟨op, some (rsOf w).toFin, some (rtOf w).toFin, some (rdOf w).toFin, none, controlOf op⟩ :=
  formR_eq_some.mpr ⟨(rdOf w).toFin, (rsOf w).toFin, (rtOf w).toFin, rfl, rfl, rfl, rfl⟩

theorem formI_of_fields (op : Op) (w : Word) :
    formI op (rsOf w).toNat (rtOf w).toNat (immOf w) =
      some ⟨op, some (rsOf w).toFin, some (rtOf w).toFin, none, some (sext16 (imm16Of w)), controlOf op⟩ := by
  rw [sext16_imm16Of]
  exact formI_eq_some.mpr ⟨(rsOf w).toFin, (rtOf w).toFin, rfl, rfl, imm16Ok_toInt (imm16Of w), rfl⟩

theorem formJ_of_fields (w : Word) :
    formJ (idxOf w) = some ⟨.j, none, none, none, some (zext26 (idx26Of w)), controlOf .j⟩ := by
  rw [zext26_idx26Of]
  exact formJ_eq_some.mpr ⟨idx26Ok_toNat (idx26Of w), rfl⟩

/-- What the decoder answers has the MicroOp made of the word's fields. -/
theorem microOp_of_decodeWord {w : Word} {i : Instr} (h : decodeWord w = .ok i) :
    ∃ op, microOp i = some (.ofFields op w) := by
  obtain ⟨-, rfl⟩ | ⟨-, rfl⟩ | ⟨-, rfl⟩ | ⟨-, rfl⟩ | ⟨-, rfl⟩ | ⟨-, rfl⟩ | ⟨-, rfl⟩ | ⟨-, rfl⟩ | ⟨-, rfl⟩ :=
    decodeWord_cases h
  · exact ⟨.add, formR_of_fields .add w⟩
  · exact ⟨.sub, formR_of_fields .sub w⟩
  · exact ⟨.addi, formI_of_fields .addi w⟩
  · exact ⟨.subi, formI_of_fields .subi w⟩
  · exact ⟨.lw, formI_of_fields .lw w⟩
  · exact ⟨.sw, formI_of_fields .sw w⟩
  · exact ⟨.beq, formI_of_fields .beq w⟩
  · exact ⟨.j, formJ_of_fields w⟩
  · exact ⟨.halt, rfl⟩

/-- The MicroOp of a word is made of the word's fields. -/
theorem eq_ofFields_of_word {w : Word} {m : MicroOp} (h : microOpOfWord w = some m) : ∃ op, m = .ofFields op w := by
  obtain ⟨i, hd, hi⟩ := microOpOfWord_eq_some.mp h
  obtain ⟨op, hop⟩ := microOp_of_decodeWord hd
  exact ⟨op, Option.some.inj (hi.symm.trans hop)⟩

/-- Settles O3: the MicroOp is `MicroOp.ofFields` of its opcode, and that one has the fields of R71 for each opcode. -/
theorem microOpFieldsAreWordBits : Obligations.MicroOpFieldsAreWordBits := by
  unfold Obligations.MicroOpFieldsAreWordBits
  intro w m h
  obtain ⟨op, rfl⟩ := eq_ofFields_of_word h
  cases op <;> exact ⟨rfl, rfl, rfl, rfl⟩

end Sys2Proof.Machine

/-! PROOFS. A cycle raises its fault exactly on a malformed word that Decode runs on (R107, R231). -/

namespace Sys2Proof

/-- The decoder's only error names the word it was given (R76). -/
theorem eq_malformed_of_decodeWord {w : Word} {e : DecodeError} (h : decodeWord w = .error e) : e = .malformed w := by
  unfold decodeWord at h
  repeat' split at h
  all_goals cases h
  rfl

end Sys2Proof

namespace Sys2Proof.Machine

/-- A word has no MicroOp exactly when it is malformed: whatever decodes has one. -/
theorem microOpOfWord_eq_none {w : Word} : microOpOfWord w = none ↔ decodeWord w = .error (.malformed w) := by
  unfold microOpOfWord
  cases hd : decodeWord w with
  | ok i =>
    obtain ⟨op, hop⟩ := microOp_of_decodeWord hd
    simp [hop]
  | error e => simp [eq_malformed_of_decodeWord hd]

/-- A malformed word has no sources, so it raises no load-use hazard (R203). -/
@[simp] theorem State.loadUse_none (s : State) : s.loadUse none = false := by
  unfold State.loadUse
  cases s.idEx <;> cases s.ifId <;> simp

/-- Decode raises on an IF_ID record exactly when it holds no MicroOp and Memory does not wait (R107, R166). -/
theorem State.malformedInDecode_eq_some {y : Option MicroOp} {s : State} {f : IfId} :
    s.malformedInDecode y = some f ↔ s.memWait = false ∧ y = none ∧ s.ifId = some f := by
  cases y with
  | some m => simp
  | none => simp [State.malformedInDecode, State.idRun]

/-- Settles O20: a fault of the step is one of its cycle, and there the IF_ID word has no MicroOp. -/
theorem malformedFaultExactly : Obligations.MalformedFaultExactly := by
  unfold Obligations.MalformedFaultExactly
  intro s r
  rw [step_eq_cycle, cycle_fault_iff]
  simp only [State.malformedInDecode_eq_some]
  constructor
  · rintro ⟨hrun, f, ⟨hwait, hy, hf⟩, rfl⟩
    rw [State.inDecode_of_ifId hf] at hy
    exact ⟨hrun, hwait, f, hf, microOpOfWord_eq_none.mp hy, rfl⟩
  · rintro ⟨hrun, hwait, f, hf, hbad, rfl⟩
    have hy : s.inDecode = none := (State.inDecode_of_ifId hf).trans (microOpOfWord_eq_none.mpr hbad)
    exact ⟨hrun, f, ⟨hwait, hy, hf⟩, rfl⟩

end Sys2Proof.Machine

/-! PROOFS. The stages, each on the cycle that runs it (45_pipeline_stages.md): Fetch, the operand read, Execute, the
resolution of a `beq` or a `j`, and Writeback. -/

namespace Sys2Proof.Machine

/-- A step of a running machine that answers a next state is its cycle. -/
theorem step_next_of_running {s t : State} (hr : s.runState = .running) (h : step s = .next t) :
    t = s.cycleNext s.inDecode := by
  rcases step_next_cases h with ⟨-, -, ht⟩ | ⟨hne, -⟩
  · exact ht
  · exact absurd hr hne

/-! ### Fetch -/

/-- Fetch, when it runs, on its fetch address `a` (R163, R164): the present word and the next address, or a bubble. -/
theorem State.fetches_of_ifRun {y : Option MicroOp} {s : State} {a : Word} (hrun : s.ifRun y = true)
    (ha : s.fetchAddr = a) :
    (∀ w, s.imem.fetch a = some w → s.ifIdNext y = some { instr := w, pc := a } ∧ s.pcNext y = a + 4) ∧
    (s.imem.fetch a = none → s.ifIdNext y = none ∧ s.pcNext y = a) := by
  subst ha
  constructor
  · intro w hw
    simp [State.ifIdNext, State.pcNext, State.fetched, hrun, hw, Config.pcStep]
  · intro hw
    simp [State.ifIdNext, State.pcNext, State.fetched, hrun, hw]

/-- Settles O26: the fetch address is the redirect of the cycle or else `pc`. -/
theorem fetchWhenItRuns : Obligations.FetchWhenItRuns := by
  unfold Obligations.FetchWhenItRuns
  intro s t hr hstep hrun
  obtain rfl := step_next_of_running hr hstep
  exact State.fetches_of_ifRun hrun rfl

/-! ### Writeback and the write-through -/

/-- What a register holds after Writeback of one instruction (R185, R22). -/
theorem MemWb.read_writeTo (w : MemWb) (x : RegFile) (r : Reg) :
    (w.writeTo x).read r =
      if w.ctrl.regWrite = true ∧ w.dest = some r ∧ r ≠ 0 then w.value else x.read r := by
  unfold MemWb.writeTo
  cases w.ctrl.regWrite with
  | false => simp
  | true =>
    cases w.dest with
    | none => simp
    | some d =>
      by_cases hd : d = r
      · subst hd; simp [RegFile.read_write]
      · simp [RegFile.read_write, hd, Ne.symm hd]

theorem State.regsAfterWb_none {s : State} (h : s.memWb = none) : s.regsAfterWb = s.x := by
  simp [State.regsAfterWb, h]

theorem State.regsAfterWb_some {s : State} {w : MemWb} (h : s.memWb = some w) : s.regsAfterWb = w.writeTo s.x := by
  simp [State.regsAfterWb, h]

/-- Settles O33: the registers after the step are those Writeback leaves. -/
theorem writebackWritesDestination : Obligations.WritebackWritesDestination := by
  unfold Obligations.WritebackWritesDestination
  intro s t hr hstep
  obtain rfl := step_next_of_running hr hstep
  rw [State.cycleNext_x]
  constructor
  · intro hw r
    rw [State.regsAfterWb_none hw]
  · intro w hw r
    rw [State.regsAfterWb_some hw]
    exact w.read_writeTo s.x r

/-! ### The operand read -/

theorem ExMem.bypasses_eq_true {e : ExMem} {r : Reg} :
    e.bypasses r = true ↔ r ≠ 0 ∧ e.ctrl.regWrite = true ∧ e.ctrl.memRead = false ∧ e.dest = some r := by
  simp [ExMem.bypasses, and_assoc]

theorem State.operand_of_bypass {s : State} {e : ExMem} {r : Reg} (he : s.exMem = some e)
    (hb : e.bypasses r = true) : s.operand r = e.aluResult := by
  simp [State.operand, he, hb]

/-- Without a bypass Execute reads the register file as this cycle's Writeback leaves it (R171). -/
theorem State.operand_of_no_bypass {s : State} {r : Reg} (h : ∀ e, s.exMem = some e → e.bypasses r ≠ true) :
    s.operand r = s.regsAfterWb.read r := by
  unfold State.operand
  cases he : s.exMem with
  | none => rfl
  | some e => simp [h e he]

/-- Settles O27: the bypass decides first; without it the operand is read from the register file after Writeback. -/
theorem operandBypassAndWriteThrough : Obligations.OperandBypassAndWriteThrough := by
  unfold Obligations.OperandBypassAndWriteThrough
  intro s r
  refine ⟨fun e he h0 hw hm hd => State.operand_of_bypass he (ExMem.bypasses_eq_true.mpr ⟨h0, hw, hm, hd⟩), ?_⟩
  intro hno
  rw [State.operand_of_no_bypass fun e he hb => hno ⟨e, he, ExMem.bypasses_eq_true.mp hb⟩]
  constructor
  · intro w hw h0 hreg hd
    rw [State.regsAfterWb_some hw, MemWb.read_writeTo, if_pos ⟨hreg, hd, h0⟩, MemWb.value]
  · intro hnone
    cases hw : s.memWb with
    | none => rw [State.regsAfterWb_none hw]
    | some w =>
      rw [State.regsAfterWb_some hw, MemWb.read_writeTo, if_neg]
      rintro ⟨hreg, hd, h0⟩
      exact hnone ⟨w, hw, h0, hreg, hd⟩

/-! ### Execute -/

/-- EX_MEM after a cycle in which Execute runs (R170, R177). -/
theorem State.exMemNext_of_execute {s : State} {i : IdEx} (hw : s.memWait = false) (hx : s.idEx = some i) :
    s.exMemNext = some (i.execute (s.operandOrZero i.rs) (s.operandOrZero i.rt)) := by
  simp [State.exMemNext, hw, hx]

theorem MicroOp.secondOperand_of_imm {m : MicroOp} {v : Word} (rtVal : Word) (ha : m.ctrl.aluSrc = true)
    (hv : m.imm = some v) : m.secondOperand rtVal = v := by
  simp [MicroOp.secondOperand, MicroOp.immValue, ha, hv]

theorem MicroOp.secondOperand_of_reg {m : MicroOp} (rtVal : Word) (ha : m.ctrl.aluSrc = false) :
    m.secondOperand rtVal = rtVal := by
  simp [MicroOp.secondOperand, ha]

/-- Settles O28: EX_MEM is what Execute makes of ID_EX on its two operand values and its second ALU operand. -/
theorem executeFillsExMem : Obligations.ExecuteFillsExMem := by
  unfold Obligations.ExecuteFillsExMem
  intro s t i hr hw hx hstep
  obtain rfl := step_next_of_running hr hstep
  refine ⟨s.operandOrZero i.rs, s.operandOrZero i.rt, i.secondOperand (s.operandOrZero i.rt), ?_, ?_,
    fun ha v hv => MicroOp.secondOperand_of_imm _ ha hv, fun ha => MicroOp.secondOperand_of_reg _ ha, ?_⟩
  · cases i.rs <;> rfl
  · cases i.rt <;> rfl
  · rw [State.cycleNext_exMem, State.exMemNext_of_execute hw hx, IdEx.execute, MicroOp.result, MicroOp.dest]
    cases i.ctrl.aluOp <;> rfl

/-! ### A `beq` or a `j` in Execute -/

/-- With IF_ID empty and no memory wait Fetch runs (R208). -/
theorem State.ifRun_of_empty {s : State} (hw : s.memWait = false) (hf : s.ifId = none) :
    s.ifRun s.inDecode = true := by
  simp [State.ifRun, State.idRun, State.branchStall, State.inDecode, hw, hf]

/-- The redirect of a cycle in which Execute runs is that of its instruction on the operand values (R174, R175). -/
theorem State.redirect_of_execute {s : State} {i : IdEx} (hw : s.memWait = false) (hx : s.idEx = some i) :
    s.redirect = i.redirect i.pc (s.operandOrZero i.rs) (s.operandOrZero i.rt) := by
  simp [State.redirect, hw, hx]

/-- A branch is counted as taken exactly where its operand values are equal (R174). -/
theorem State.branchTaken_of_execute {s : State} {i : IdEx} (hw : s.memWait = false) (hx : s.idEx = some i) :
    s.branchTaken = (i.ctrl.branch && operandsEqual (s.operandOrZero i.rs) (s.operandOrZero i.rt)) := by
  simp [State.branchTaken, hw, hx]

/-- The redirect of a branch (R104, R174). -/
theorem MicroOp.redirect_of_beq {m : MicroOp} {v : Word} (hc : m.ctrl = controlOf .beq) (hv : m.imm = some v)
    (p a b : Word) : m.redirect p a b = if a = b then some (p + 4 + v * 4) else none := by
  simp [MicroOp.redirect, MicroOp.immValue, branchTarget, operandsEqual, controlOf, hc, hv]

/-- The redirect of a jump (R104, R175). -/
theorem MicroOp.redirect_of_j {m : MicroOp} {v : Word} (hc : m.ctrl = controlOf .j) (hv : m.imm = some v)
    (p a b : Word) : m.redirect p a b = some (v * 4) := by
  simp [MicroOp.redirect, MicroOp.immValue, jumpTarget, controlOf, hc, hv]

/-- Behind a `beq` or `j` in Execute Fetch runs, and without a redirect it fetches the address after it (R46, R174). -/
theorem State.Inv.fetch_behind_transfer {s : State} (hi : s.Inv) {i : IdEx} (hw : s.memWait = false)
    (hx : s.idEx = some i) (ht : i.transfers = true) :
    s.ifRun s.inDecode = true ∧ s.fetchAddr = s.redirect.getD (i.pc + 4) := by
  obtain ⟨hf, hpc⟩ := hi.transferAlone i hx ht
  exact ⟨State.ifRun_of_empty hw hf, by rw [State.fetchAddr, hpc]⟩

/-- Settles O29: the fetch address is the branch's target if its operand values are equal, else the address after it. -/
theorem branchResolves : Obligations.BranchResolves := by
  unfold Obligations.BranchResolves
  intro s t i a b v target hi hr hw hx hop hrs hrt himm hstep htarget
  obtain rfl := step_next_of_running hr hstep
  have hc : i.ctrl = controlOf .beq := hop ▸ hi.ctrl_idEx hx
  obtain ⟨hrun, haddr⟩ := hi.fetch_behind_transfer hw hx (by simp [IdEx.transfers, hc, controlOf])
  have hred : s.redirect = if s.operand a = s.operand b then some (i.pc + 4 + v * 4) else none := by
    rw [State.redirect_of_execute hw hx, MicroOp.redirect_of_beq hc himm, hrs, hrt]
    rfl
  have hfetch : s.fetchAddr = target := by
    rw [haddr, hred, htarget]
    split <;> rfl
  obtain ⟨hpresent, habsent⟩ := State.fetches_of_ifRun hrun hfetch
  refine ⟨hpresent, habsent, ?_⟩
  have htaken : s.branchTaken = decide (s.operand a = s.operand b) := by
    rw [State.branchTaken_of_execute hw hx, hc, hrs, hrt]
    rfl
  by_cases heq : s.operand a = s.operand b <;> simp [State.statsNext, countIf, htaken, heq]

/-- Settles O30: the fetch address is the jump's target, and a jump has no `branch` bit. -/
theorem jumpResolves : Obligations.JumpResolves := by
  unfold Obligations.JumpResolves
  intro s t i v hi hr hw hx hop himm hstep
  obtain rfl := step_next_of_running hr hstep
  have hc : i.ctrl = controlOf .j := hop ▸ hi.ctrl_idEx hx
  obtain ⟨hrun, haddr⟩ := hi.fetch_behind_transfer hw hx (by simp [IdEx.transfers, hc, controlOf])
  have hfetch : s.fetchAddr = v * 4 := by
    rw [haddr, State.redirect_of_execute hw hx, MicroOp.redirect_of_j hc himm]
    rfl
  obtain ⟨hpresent, habsent⟩ := State.fetches_of_ifRun hrun hfetch
  refine ⟨hpresent, habsent, ?_⟩
  have htaken : s.branchTaken = false := by
    rw [State.branchTaken_of_execute hw hx, hc]
    rfl
  simp [State.statsNext, countIf, htaken]

end Sys2Proof.Machine

/-! PROOFS. The stall controller (46_hazard_stall_controller.md): the wait cycle, the load-use comparator, and the
classification of the cycle. -/

namespace Sys2Proof.Machine

/-! ### The signals and the counters they drive -/

/-- A counter goes up exactly where its event happened (R212). -/
theorem countIf_eq_succ {b : Bool} {n : Nat} : countIf b n = n + 1 ↔ b = true := by
  cases b <;> simp [countIf]

/-- The comparison of R203: an absent index equals nothing, not even another absent one. -/
theorem sameReg_eq_true {a b : Option Reg} : sameReg a b = true ↔ ∃ d, b = some d ∧ a = some d := by
  cases a <;> cases b <;> simp [sameReg, eq_comm]

/-- `load_use` as its comparator (R203), on any answer of the decoder. -/
theorem State.loadUse_eq_true {y : Option MicroOp} {s : State} :
    s.loadUse y = true ↔ s.memWait = false ∧ ∃ i f m, s.idEx = some i ∧ s.ifId = some f ∧ y = some m ∧
      i.ctrl.memRead = true ∧ (sameReg m.rs i.dest = true ∨ sameReg m.rt i.dest = true) := by
  unfold State.loadUse
  cases s.idEx <;> cases s.ifId <;> cases y <;> simp

/-- A branch stall is raised in a cycle in which Decode runs, so beside neither of the other two (R206, R208). -/
theorem State.no_wait_of_branchStall {y : Option MicroOp} {s : State} (h : s.branchStall y = true) :
    s.memWait = false ∧ s.loadUse y = false := by
  simp only [State.branchStall, Bool.and_eq_true] at h
  obtain ⟨⟨hrun, -⟩, -⟩ := h
  exact State.idRun_eq_true.mp hrun

theorem State.branchStall_of_memWait {y : Option MicroOp} {s : State} (h : s.memWait = true) :
    s.branchStall y = false :=
  State.branchStall_of_not_idRun (by simp [State.idRun, h])

/-! ### The wait cycle -/

/-- A wait cycle counts itself and its retirement, and no other event (R202, R212). -/
theorem State.statsNext_of_memWait {y : Option MicroOp} {s : State} (h : s.memWait = true) :
    s.statsNext y = { s.stats with
      totalCycles := s.stats.totalCycles + 1
      instructionsRetired := countIf s.retires s.stats.instructionsRetired
      memWaitCycles := s.stats.memWaitCycles + 1 } := by
  have htaken : s.branchTaken = false := by simp [State.branchTaken, h]
  simp [State.statsNext, countIf, State.loadUse_of_memWait h, State.branchStall_of_memWait h, htaken, h]

/-- Decode does not run in a wait cycle, so a step of one raises nothing. -/
theorem step_of_memWait {s : State} (hr : s.runState = .running) (h : s.memWait = true) :
    step s = .next (s.cycleNext s.inDecode) := by
  rw [step_eq_cycle]
  exact cycle_of_running hr (by simp [State.malformedInDecode, State.idRun, h])

/-- Settles O23: in a wait cycle the stages above Memory are held, and Writeback alone goes on. -/
theorem memoryWaitCycle : Obligations.MemoryWaitCycle := by
  unfold Obligations.MemoryWaitCycle
  intro s e hr he hpos
  have hw : s.memWait = true := State.memWait_eq_true.mpr ⟨e, he, hpos⟩
  obtain ⟨hex, hid, hif, hpc, hwb, hmem, hleft, hdraws⟩ := State.wait_holds (y := s.inDecode) hw
  have hstep := step_of_memWait hr hw
  obtain ⟨hempty, hfull⟩ := writebackWritesDestination s _ hr hstep
  refine ⟨_, hstep, hex, hid, hif, hpc, hwb, ?_, hmem, ?_, ?_, ?_, ?_⟩
  · rw [State.cycleNext_memCyclesLeft, hleft]
    omega
  · cases hm : s.memWb with
    | none => exact hempty hm
    | some w => exact hfull w hm
  · simp [hdraws]
  · simp [countIf, hdraws]
  · simp [State.statsNext_of_memWait hw]

/-! ### The load-use hazard -/

/-- Settles O24: the comparator on what the decoder makes of IF_ID, and the counter that follows it. -/
theorem loadUseExactly : Obligations.LoadUseExactly := by
  unfold Obligations.LoadUseExactly
  intro s t hr hstep
  obtain rfl := step_next_of_running hr hstep
  refine ⟨?_, countIf_eq_succ⟩
  simp only [State.loadUse_eq_true, sameReg_eq_true]
  constructor
  · rintro ⟨hw, i, f, m, hx, hf, hy, hload, hsrc⟩
    rw [State.inDecode_of_ifId hf] at hy
    obtain ⟨d, hd, hrs⟩ | ⟨d, hd, hrt⟩ := hsrc
    · exact ⟨hw, i, f, m, d, hx, hload, hd, hf, hy, .inl hrs⟩
    · exact ⟨hw, i, f, m, d, hx, hload, hd, hf, hy, .inr hrt⟩
  · rintro ⟨hw, i, f, m, d, hx, hload, hd, hf, hm, hsrc⟩
    have hy : s.inDecode = some m := (State.inDecode_of_ifId hf).trans hm
    exact ⟨hw, i, f, m, hx, hf, hy, hload, hsrc.imp (⟨d, hd, ·⟩) (⟨d, hd, ·⟩)⟩

/-! ### The controller state -/

/-- Settles O36: each signal is false beside one that R210 names before it, so it decides the classification itself. -/
theorem controllerClassifiesCycle : Obligations.ControllerClassifiesCycle := by
  unfold Obligations.ControllerClassifiesCycle
  intro s t hr hstep
  obtain rfl := step_next_of_running hr hstep
  rw [State.cycleNext_ctrlState, State.ctrlStateNext]
  refine ⟨fun hh => by simp [hh], fun hh hw => by simp [hh, hw], ?_, ?_,
    fun hh hw hl hb => by simp [hh, hw, hl, hb], ?_, ?_, ?_⟩
  · intro hh hl
    obtain ⟨-, -, hw⟩ := State.loadUse_holds hl
    simp [hh, hw, hl]
  · intro hh hb
    obtain ⟨hw, hl⟩ := State.no_wait_of_branchStall hb
    simp [hh, hw, hl, hb]
  · rintro ⟨hw, hl⟩
    simp [State.loadUse_of_memWait hw] at hl
  · rintro ⟨hw, hb⟩
    simp [State.branchStall_of_memWait hw] at hb
  · rintro ⟨hl, hb⟩
    simp [(State.no_wait_of_branchStall hb).2] at hl

end Sys2Proof.Machine

/-! PROOFS. The invariant: it holds at the start of every launch and every step keeps it (10_state.md section 10). -/

namespace Sys2Proof.Machine

/-! ### What each pipeline register can hold after a cycle -/

/-- EX_MEM is held in a wait cycle; else it is what Execute makes of ID_EX (R169, R177). -/
theorem State.exMemNext_eq_some {s : State} {e : ExMem} :
    s.exMemNext = some e ↔ (s.memWait = true ∧ s.exMem = some e) ∨
      (s.memWait = false ∧ ∃ i, s.idEx = some i ∧ e = i.execute (s.operandOrZero i.rs) (s.operandOrZero i.rt)) := by
  unfold State.exMemNext
  cases s.memWait <;> cases s.idEx <;> simp [eq_comm]

/-- MEM_WB is filled by a perform cycle alone (R180 to R182). -/
theorem State.memWbNext_eq_some {s : State} {w : MemWb} :
    s.memWbNext = some w ↔ s.memWait = false ∧ ∃ e, s.exMem = some e ∧ w = e.perform s.dmem := by
  unfold State.memWbNext
  cases s.memWait <;> cases s.exMem <;> simp [eq_comm]

/-- ID_EX is held in a wait cycle; else it is filled by Decode alone (R166, R167). -/
theorem State.idExNext_eq_some {y : Option MicroOp} {s : State} {i : IdEx} :
    s.idExNext y = some i ↔ (s.memWait = true ∧ s.idEx = some i) ∨
      (s.idRun y = true ∧ ∃ f m, s.ifId = some f ∧ y = some m ∧ i = { m with instr := f.instr, pc := f.pc }) := by
  unfold State.idExNext State.idRun
  cases s.memWait <;> cases s.loadUse y <;> cases s.ifId <;> cases y <;> simp [eq_comm]

theorem State.fetched_eq_some {s : State} {f : IfId} :
    s.fetched = some f ↔ s.imem.fetch s.fetchAddr = some f.instr ∧ f.pc = s.fetchAddr := by
  obtain ⟨instr, pc⟩ := f
  unfold State.fetched
  cases s.imem.fetch s.fetchAddr <;> simp [eq_comm]

/-- IF_ID is filled by Fetch, or held where Decode does not run (R163, R165). -/
theorem State.ifIdNext_eq_some {y : Option MicroOp} {s : State} {f : IfId} :
    s.ifIdNext y = some f ↔ (s.ifRun y = true ∧ s.fetched = some f) ∨ (s.idRun y = false ∧ s.ifId = some f) := by
  cases hr : s.idRun y with
  | false => simp [State.ifIdNext, State.ifRun, hr, State.branchStall_of_not_idRun hr]
  | true => cases hb : s.branchStall y <;> simp [State.ifIdNext, State.ifRun, hr, hb]

/-- Where Fetch does not run `pc` is the fetch address; behind a fetched word it is the next address (R163, R165). -/
theorem State.pcNext_of_not_ifRun {y : Option MicroOp} {s : State} (h : s.ifRun y = false) :
    s.pcNext y = s.fetchAddr := by
  simp [State.pcNext, h]

theorem State.pcNext_of_fetched {y : Option MicroOp} {s : State} {f : IfId} (h : s.ifRun y = true)
    (hf : s.fetched = some f) : s.pcNext y = f.pc + 4 := by
  rw [(State.fetched_eq_some.mp hf).2]
  simp [State.pcNext, h, hf, Config.pcStep]

theorem State.pcNext_of_not_fetched {y : Option MicroOp} {s : State} (h : s.fetched = none) :
    s.pcNext y = s.fetchAddr := by
  simp [State.pcNext, h]

/-- A branch stall: Decode runs on a `beq` or a `j` (R206). -/
theorem State.branchStall_eq_true {y : Option MicroOp} {s : State} :
    s.branchStall y = true ↔ s.idRun y = true ∧ ∃ f m, s.ifId = some f ∧ y = some m ∧
      (m.ctrl.branch = true ∨ m.ctrl.jump = true) := by
  unfold State.branchStall
  cases s.ifId <;> cases y <;> simp

/-! ### The addresses of Fetch -/

/-- With IF_ID not empty the fetch address is `pc` (R46, R164). -/
theorem State.Inv.fetchAddr_of_ifId {s : State} (hi : s.Inv) {f : IfId} (hf : s.ifId = some f) :
    s.fetchAddr = s.pc := by
  simp [State.fetchAddr, hi.no_redirect hf]

/-- Where Decode does not run there is no redirect, so the fetch address is `pc` (R46, R164, R169). -/
theorem State.Inv.fetchAddr_of_held {s : State} (hi : s.Inv) {y : Option MicroOp} (h : s.idRun y = false) :
    s.fetchAddr = s.pc := by
  cases hf : s.ifId with
  | some f => exact hi.fetchAddr_of_ifId hf
  | none =>
    have hw : s.memWait = true := by simpa [State.idRun, State.loadUse, hf] using h
    simp [State.fetchAddr, State.redirect, hw]

theorem aligned_add_four {a : Word} (h : a.toNat % 4 = 0) : (a + 4).toNat % 4 = 0 := by
  bv_omega

theorem aligned_mul_four (a : Word) : (a * 4).toNat % 4 = 0 := by
  bv_omega

theorem aligned_add {a b : Word} (ha : a.toNat % 4 = 0) (hb : b.toNat % 4 = 0) : (a + b).toNat % 4 = 0 := by
  bv_omega

/-- A redirect leads to a multiple of 4 (R26, R174, R175). -/
theorem MicroOp.aligned_of_redirect {m : MicroOp} {p a b r : Word} (hp : p.toNat % 4 = 0)
    (h : m.redirect p a b = some r) : r.toNat % 4 = 0 := by
  unfold MicroOp.redirect at h
  split at h
  · cases h
    exact aligned_mul_four _
  · split at h
    · cases h
      exact aligned_add (aligned_add_four hp) (aligned_mul_four _)
    · cases h

theorem State.Inv.fetchAddr_aligned {s : State} (hi : s.Inv) : s.fetchAddr.toNat % 4 = 0 := by
  unfold State.fetchAddr
  cases hr : s.redirect with
  | none => exact hi.pcAligned
  | some r =>
    unfold State.redirect at hr
    split at hr
    · cases hr
    · split at hr
      · cases hr
      · next i hx =>
        exact MicroOp.aligned_of_redirect (InstrStore.aligned_of_fetch hi.imemWf (hi.idExDecoded i hx).2) hr

/-! ### The latency counter -/

theorem State.memCyclesLeftNext_of_run {s : State} (hw : s.memWait = false) :
    s.memCyclesLeftNext = if s.draws then s.draw.cycles else 0 := by
  simp [State.memCyclesLeftNext, hw]

/-- Execute draws exactly where a memory operation enters EX_MEM (R176). -/
theorem State.draws_eq_isMemOp {s : State} {i : IdEx} (hw : s.memWait = false) (hx : s.idEx = some i) (a b : Word) :
    s.draws = (i.execute a b).isMemOp := by
  simp [State.draws, hw, hx, ExMem.isMemOp, IdEx.execute]

/-- A memory operation that enters EX_MEM has its draw of 2 or 3 before it (R176). -/
theorem State.two_le_memCyclesLeftNext {s : State} {e : ExMem} (hw : s.memWait = false) (he : s.exMemNext = some e)
    (hm : e.isMemOp = true) : 2 ≤ s.memCyclesLeftNext := by
  obtain ⟨hw', -⟩ | ⟨-, i, hx, rfl⟩ := State.exMemNext_eq_some.mp he
  · simp [hw] at hw'
  · rw [State.memCyclesLeftNext_of_run hw, State.draws_eq_isMemOp hw hx, if_pos hm]
    have := Latency.cycles_mem s.draw
    omega

/-- The counter after the cycle is 0 unless a memory operation is in EX_MEM then (R45). -/
theorem State.Inv.memCyclesLeftNext_idle {s : State} (hi : s.Inv)
    (h : ∀ e, s.exMemNext = some e → e.isMemOp = false) : s.memCyclesLeftNext = 0 := by
  cases hw : s.memWait with
  | true =>
    have hidle := hi.counterIdle fun e he => h e (State.exMemNext_eq_some.mpr (.inl ⟨hw, he⟩))
    simp [State.memCyclesLeftNext, hidle, hw]
  | false =>
    rw [State.memCyclesLeftNext_of_run hw]
    cases hx : s.idEx with
    | none => simp [State.draws, hx]
    | some i =>
      rw [State.draws_eq_isMemOp hw hx, h _ (State.exMemNext_of_execute hw hx)]
      rfl

theorem State.Inv.memCyclesLeftNext_le {s : State} (hi : s.Inv) : s.memCyclesLeftNext ≤ 3 := by
  have hbound := hi.counterBound
  have hdraw := Latency.cycles_mem s.draw
  unfold State.memCyclesLeftNext
  repeat' split
  all_goals omega

/-! ### The fields of the invariant after a cycle -/

section Kept
variable {s : State} (hi : s.Inv)
include hi

theorem State.Inv.dmemNext_wf : s.dmemNext.wf = true := by
  unfold State.dmemNext ExMem.storeTo
  repeat' split
  · exact hi.dmemWf
  · exact hi.dmemWf
  · exact Memory.wf_write _ _ hi.dmemWf
  · exact hi.dmemWf

theorem State.Inv.regsAfterWb_zero : s.regsAfterWb.read 0 = 0 := by
  cases hw : s.memWb with
  | none => rw [State.regsAfterWb_none hw]; exact hi.zeroReg
  | some w => rw [State.regsAfterWb_some hw, MemWb.read_writeTo]; simpa using hi.zeroReg

theorem State.Inv.pcNext_aligned (y : Option MicroOp) : (s.pcNext y).toNat % 4 = 0 := by
  unfold State.pcNext
  split
  · exact aligned_add_four hi.fetchAddr_aligned
  · exact hi.fetchAddr_aligned

theorem State.Inv.ifIdNext_fetched {y : Option MicroOp} {f : IfId} (h : s.ifIdNext y = some f) :
    s.imem.fetch f.pc = some f.instr ∧ s.pcNext y = f.pc + 4 := by
  obtain ⟨hrun, hf⟩ | ⟨hheld, hf⟩ := State.ifIdNext_eq_some.mp h
  · obtain ⟨hfetch, hpc⟩ := State.fetched_eq_some.mp hf
    exact ⟨hpc ▸ hfetch, State.pcNext_of_fetched hrun hf⟩
  · obtain ⟨hfetch, hpc⟩ := hi.ifIdFetched f hf
    refine ⟨hfetch, ?_⟩
    rw [State.pcNext_of_not_ifRun (by simp [State.ifRun, hheld]), hi.fetchAddr_of_ifId hf, hpc]

theorem State.Inv.idExNext_decoded {i : IdEx} (h : s.idExNext s.inDecode = some i) :
    microOpOfWord i.instr = some i.toMicroOp ∧ s.imem.fetch i.pc = some i.instr := by
  obtain ⟨-, hx⟩ | ⟨-, f, m, hf, hy, rfl⟩ := State.idExNext_eq_some.mp h
  · exact hi.idExDecoded i hx
  · exact ⟨(State.inDecode_of_ifId hf).symm.trans hy, (hi.ifIdFetched f hf).1⟩

theorem State.Inv.exMemNext_decoded {e : ExMem} (h : s.exMemNext = some e) :
    ∃ m, microOpOfWord e.instr = some m ∧ e.op = m.op ∧ e.ctrl = m.ctrl ∧ e.dest = m.dest := by
  obtain ⟨-, he⟩ | ⟨-, i, hx, rfl⟩ := State.exMemNext_eq_some.mp h
  · exact hi.exMemDecoded e he
  · exact ⟨i.toMicroOp, (hi.idExDecoded i hx).1, rfl, rfl, rfl⟩

theorem State.Inv.memWbNext_decoded {w : MemWb} (h : s.memWbNext = some w) :
    (∃ m, microOpOfWord w.instr = some m ∧ w.op = m.op ∧ w.ctrl = m.ctrl ∧ w.dest = m.dest) ∧
      (w.ctrl.memRead = false → w.memData = 0) := by
  obtain ⟨-, e, he, rfl⟩ := State.memWbNext_eq_some.mp h
  exact ⟨hi.exMemDecoded e he, fun hm => if_neg (Bool.eq_false_iff.mp hm)⟩

/-- Decode takes a `beq` or `j` in a branch stall, so nothing is fetched behind it (R206). -/
theorem State.Inv.transferAlone_next {i : IdEx} (h : s.idExNext s.inDecode = some i) (ht : i.transfers = true) :
    s.ifIdNext s.inDecode = none ∧ s.pcNext s.inDecode = i.pc + 4 := by
  obtain ⟨hw, hx⟩ | ⟨hrun, f, m, hf, hy, rfl⟩ := State.idExNext_eq_some.mp h
  · obtain ⟨-, -, hif, hpc, -⟩ := State.wait_holds (y := s.inDecode) hw
    rw [hif, hpc]
    exact hi.transferAlone i hx ht
  · have hb : s.branchStall s.inDecode = true := 
      State.branchStall_eq_true.mpr ⟨hrun, f, m, hf, hy, by simpa [IdEx.transfers] using ht⟩
    have hif : s.ifRun s.inDecode = false := by simp [State.ifRun, hb]
    refine ⟨by simp [State.ifIdNext, hif, hb], ?_⟩
    rw [State.pcNext_of_not_ifRun hif, hi.fetchAddr_of_ifId hf, (hi.ifIdFetched f hf).2]

/-- Decode takes no reader of the destination of a load that goes on to EX_MEM in the same cycle (R47, R203). -/
theorem State.Inv.loadUseClear_next {e : ExMem} {i : IdEx} (he : s.exMemNext = some e) (hm : e.ctrl.memRead = true)
    (h : s.idExNext s.inDecode = some i) : sameReg i.rs e.dest = false ∧ sameReg i.rt e.dest = false := by
  obtain ⟨hw, he⟩ | ⟨hw, j, hj, rfl⟩ := State.exMemNext_eq_some.mp he
  · exact hi.loadUseClear e i he hm (((State.wait_holds hw).2.1).symm.trans h)
  · obtain ⟨hw', -⟩ | ⟨hrun, f, m, hf, hy, rfl⟩ := State.idExNext_eq_some.mp h
    · simp [hw] at hw'
    · have hl := (State.idRun_eq_true.mp hrun).2
      have hm' : j.ctrl.memRead = true := hm
      have hclear : ∀ r, r = m.rs ∨ r = m.rt → sameReg r j.dest = false := by
        intro r hr
        refine Bool.eq_false_iff.mpr fun hsame => Bool.eq_false_iff.mp hl ?_
        exact State.loadUse_eq_true.mpr ⟨hw, j, f, m, hj, hf, hy, hm', by
          obtain rfl | rfl := hr
          · exact .inl hsame
          · exact .inr hsame⟩
      exact ⟨hclear _ (.inl rfl), hclear _ (.inr rfl)⟩

/-- A running machine's cycle keeps the invariant. -/
theorem State.Inv.cycleNext (hr : s.runState = .running) : (s.cycleNext s.inDecode).Inv where
  dmemWf := hi.dmemNext_wf
  imemWf := hi.imemWf
  zeroReg := hi.regsAfterWb_zero
  pcAligned := hi.pcNext_aligned _
  ifIdFetched _ h := hi.ifIdNext_fetched h
  idExDecoded _ h := hi.idExNext_decoded h
  exMemDecoded _ h := hi.exMemNext_decoded h
  memWbDecoded _ h := hi.memWbNext_decoded h
  counterBound := hi.memCyclesLeftNext_le
  counterIdle h := hi.memCyclesLeftNext_idle h
  counterFresh _ _ he hw hm := State.two_le_memCyclesLeftNext (State.memWbNext_eq_some.mp hw).1 he hm
  transferAlone _ h ht := hi.transferAlone_next h ht
  loadUseClear _ _ he hm h := hi.loadUseClear_next he hm h
  notFaulted := by
    rw [State.cycleNext_runState, hr]
    split <;> simp
  haltedShown := by
    rw [State.cycleNext_runState, State.cycleNext_ctrlState, hr, State.ctrlStateNext]
    repeat' split
    all_goals simp

end Kept

/-- Settles O44: a step is a cycle of a running machine, or leaves the state as it is. -/
theorem invariantKept : Obligations.InvariantKept := by
  unfold Obligations.InvariantKept
  intro s t hi hstep
  obtain ⟨hr, -, rfl⟩ | ⟨-, rfl⟩ := step_next_cases hstep
  · exact hi.cycleNext hr
  · exact hi

/-! ### Every run -/

theorem inv_reset : State.reset.Inv := State.inv_of_checks (by decide) (by decide)

/-- A launch that starts has stores in canonical form, register 0 holding 0 and an aligned pc (R50, R252). -/
theorem Launch.start_eq_some {l : Launch} {s : State} : l.start = some s ↔
    ((l.imem.wf = true ∧ l.dmem0.wf = true) ∧ l.rf0.read 0 = 0 ∧ l.resetPc.toNat % 4 = 0) ∧ s = l.initial := by
  have hok : l.ok = true ↔ (l.imem.wf = true ∧ l.dmem0.wf = true) ∧ l.rf0.read 0 = 0 ∧ l.resetPc.toNat % 4 = 0 := by
    simp only [Launch.ok, Bool.and_eq_true, decide_eq_true_eq, and_assoc]
  rw [← hok, Launch.start]
  by_cases h : l.ok = true <;> simp [h, eq_comm]

section Initial
variable (l : Launch)

@[simp] theorem Launch.initial_ifId : l.initial.ifId = none := rfl
@[simp] theorem Launch.initial_idEx : l.initial.idEx = none := rfl
@[simp] theorem Launch.initial_exMem : l.initial.exMem = none := rfl
@[simp] theorem Launch.initial_memWb : l.initial.memWb = none := rfl
@[simp] theorem Launch.initial_memCyclesLeft : l.initial.memCyclesLeft = 0 := rfl
@[simp] theorem Launch.initial_runState : l.initial.runState = .running := rfl
@[simp] theorem Launch.initial_ctrlState : l.initial.ctrlState = .running := rfl

end Initial

theorem Launch.inv_of_start {l : Launch} {s : State} (h : l.start = some s) : s.Inv := by
  obtain ⟨⟨⟨himem, hdmem⟩, hzero, hpc⟩, rfl⟩ := Launch.start_eq_some.mp h
  constructor
  case dmemWf => exact hdmem
  case imemWf => exact himem
  case zeroReg => exact hzero
  case pcAligned => exact hpc
  all_goals simp

/-- Settles O43: the reset state by evaluation, and a launch changes the stores, the registers and `pc` alone. -/
theorem invariantAtLaunch : Obligations.InvariantAtLaunch := by
  unfold Obligations.InvariantAtLaunch
  exact ⟨inv_reset, fun _ _ h => Launch.inv_of_start h⟩

theorem State.Inv.run {s t : State} {k : Nat} (hi : s.Inv) (h : runFor k s = .next t) : t.Inv :=
  runFor_induction invariantKept hi h

/-- The invariant holds after any number of cycles of a launch. -/
theorem Launch.inv_of_run {l : Launch} {s t : State} {k : Nat} (hl : l.start = some s) (h : runFor k s = .next t) :
    t.Inv :=
  (Launch.inv_of_start hl).run h

/-- Settles O45: register 0 holds 0 in the invariant. -/
theorem zeroRegisterAlways : Obligations.ZeroRegisterAlways := by
  unfold Obligations.ZeroRegisterAlways
  intro l s t k hl h
  exact (Launch.inv_of_run hl h).zeroReg

/-- Settles O46: `pc` is aligned in the invariant. -/
theorem pcAlwaysAligned : Obligations.PcAlwaysAligned := by
  unfold Obligations.PcAlwaysAligned
  intro l s t k hl h
  exact (Launch.inv_of_run hl h).pcAligned

/-- The control vector in EX_MEM is that of its opcode. -/
theorem State.Inv.ctrl_exMem {s : State} (hi : s.Inv) {e : ExMem} (h : s.exMem = some e) : e.ctrl = controlOf e.op := by
  obtain ⟨m, hm, hop, hctrl, -⟩ := hi.exMemDecoded e h
  rw [hctrl, hop, ctrl_of_word hm]

/-- The control vector in MEM_WB is that of its opcode. -/
theorem State.Inv.ctrl_memWb {s : State} (hi : s.Inv) {w : MemWb} (h : s.memWb = some w) : w.ctrl = controlOf w.op := by
  obtain ⟨⟨m, hm, hop, hctrl, -⟩, -⟩ := hi.memWbDecoded w h
  rw [hctrl, hop, ctrl_of_word hm]

/-- An instruction in EX_MEM is a memory operation exactly where it is an `lw` or an `sw` (R104). -/
theorem State.Inv.isMemOp_iff {s : State} (hi : s.Inv) {e : ExMem} (h : s.exMem = some e) :
    e.isMemOp = true ↔ e.op = .lw ∨ e.op = .sw := by
  rw [ExMem.isMemOp, hi.ctrl_exMem h]
  cases e.op <;> decide

/-- Settles O47: what is neither `lw` nor `sw` is no memory operation, and the counter is idle without one. -/
theorem idleLatencyCounter : Obligations.IdleLatencyCounter := by
  unfold Obligations.IdleLatencyCounter
  intro l s t k hl h hnone
  have hi := Launch.inv_of_run hl h
  refine hi.counterIdle fun e he => Bool.eq_false_iff.mpr fun hm => ?_
  have hop := (hi.isMemOp_iff he).mp hm
  obtain he' | ⟨e', he', hlw, hsw⟩ := hnone
  · simp [he] at he'
  · obtain rfl : e = e' := Option.some.inj (he.symm.trans he')
    tauto

/-- Settles O48: `beq` and `j` are the opcodes with the `branch` or the `jump` bit. -/
theorem nothingFetchedBehindTransfer : Obligations.NothingFetchedBehindTransfer := by
  unfold Obligations.NothingFetchedBehindTransfer
  intro l s t k i hl h hx hop
  have hi := Launch.inv_of_run hl h
  have ht : i.transfers = true := by
    rw [IdEx.transfers, hi.ctrl_idEx hx]
    obtain hop | hop := hop <;> simp [hop, controlOf]
  exact (hi.transferAlone i hx ht).1

theorem ne_some_of_sameReg {a : Option Reg} {d : Reg} (h : sameReg a (some d) = false) : a ≠ some d := by
  rintro rfl
  simp [sameReg] at h

/-- Settles O49: an `lw` has the `mem_read` bit, and behind it the invariant compares both sources. -/
theorem loadNeverNeedsBypass : Obligations.LoadNeverNeedsBypass := by
  unfold Obligations.LoadNeverNeedsBypass
  intro l s t k e i d hl h he hop hd _ hx
  have hi := Launch.inv_of_run hl h
  have hm : e.ctrl.memRead = true := by simp [hi.ctrl_exMem he, hop, controlOf]
  obtain ⟨hrs, hrt⟩ := hd ▸ hi.loadUseClear e i he hm hx
  exact ⟨ne_some_of_sameReg hrs, ne_some_of_sameReg hrt⟩

end Sys2Proof.Machine

/-! PROOFS. The decoder and the encoder: their round trip, the field sums of an encoded word, the opcode map, and the
placement of a program with its labels (30_encoding.md). -/

namespace Sys2Proof

/-! ### Round trip (R76, R83) -/

theorem idxOf_wordJ {imm : Int} (h : idx26Ok imm = true) : idxOf (wordJ imm) = imm := by
  rw [idxOf, idx26Of_wordJ, ofInt26_toNat h]

/-- Decoding the word of a well-formed instruction gives the instruction back. -/
theorem decodeWord_encode {i : Instr} (h : i.wellFormed = true) : decodeWord (encode i) = .ok i := by
  cases i with
  | add rd rs rt | sub rd rs rt =>
    simp only [Instr.wellFormed, Bool.and_eq_true] at h
    obtain ⟨⟨hd, hs⟩, ht⟩ := h
    simp [encode, decodeWord, ofNat5_toNat hd, ofNat5_toNat hs, ofNat5_toNat ht]
  | addi rt rs imm | subi rt rs imm | lw rt imm rs | sw rt imm rs | beq rs rt imm =>
    have ⟨hs, ht, hi⟩ : regOk rs = true ∧ regOk rt = true ∧ imm16Ok imm = true := by
      simp only [Instr.wellFormed, Bool.and_eq_true] at h
      tauto
    simp [encode, decodeWord, immOf, ofNat5_toNat hs, ofNat5_toNat ht, ofInt16_toInt hi]
  | j imm => simp [encode, decodeWord, idxOf_wordJ h]
  | halt => rfl

theorem wordR_of_fields {w : Word} {f : BitVec 6} (hop : op6Of w = 0) (hsh : shamtOf w = 0) (hf : functOf w = f) :
    wordR f (rdOf w).toNat (rsOf w).toNat (rtOf w).toNat = w := by
  conv_rhs => rw [← word_of_fieldsR w, hop, hsh, hf]
  simp [wordR]

theorem wordI_of_fields {w : Word} {op6 : BitVec 6} (hop : op6Of w = op6) :
    wordI op6 (rsOf w).toNat (rtOf w).toNat (immOf w) = w := by
  conv_rhs => rw [← word_of_fieldsI w, hop]
  simp [wordI, immOf]

theorem wordJ_of_fields {w : Word} (hop : op6Of w = 0x02) : wordJ (idxOf w) = w := by
  conv_rhs => rw [← word_of_fieldsJ w, hop]
  simp [wordJ, idxOf]

/-- Encoding what a word decodes to gives the word back. -/
theorem encode_of_decodeWord {w : Word} {i : Instr} (h : decodeWord w = .ok i) : encode i = w := by
  obtain ⟨⟨ho, hs, hf⟩, rfl⟩ | ⟨⟨ho, hs, hf⟩, rfl⟩ | ⟨ho, rfl⟩ | ⟨ho, rfl⟩ | ⟨ho, rfl⟩ | ⟨ho, rfl⟩ | ⟨ho, rfl⟩ |
    ⟨ho, rfl⟩ | ⟨hw, rfl⟩ := decodeWord_cases h
  · exact wordR_of_fields ho hs hf
  · exact wordR_of_fields ho hs hf
  · exact wordI_of_fields ho
  · exact wordI_of_fields ho
  · exact wordI_of_fields ho
  · exact wordI_of_fields ho
  · exact wordI_of_fields ho
  · exact wordJ_of_fields ho
  · exact hw.symm

/-! ### Field sums (R83) -/

theorem toNat_append_eq_add {m n : Nat} (x : BitVec m) (y : BitVec n) :
    (x ++ y).toNat = x.toNat * 2 ^ n + y.toNat := by
  rw [BitVec.toNat_append, ← Nat.shiftLeft_add_eq_or_of_lt y.isLt, Nat.shiftLeft_eq]

theorem toNat_ofNat_reg (r : Reg) : (BitVec.ofNat 5 r.val).toNat = r.val :=
  ofNat5_toNat (by simp [regOk])

theorem wordR_toNat (f : BitVec 6) (rd rs rt : Reg) :
    (wordR f rd rs rt).toNat = rs * 2 ^ 21 + rt * 2 ^ 16 + rd * 2 ^ 11 + f.toNat := by
  simp only [wordR, toNat_append_eq_add, BitVec.toNat_ofNat]
  omega

theorem wordI_toNat (op6 : BitVec 6) (rs rt : Reg) (imm : Int) :
    ((wordI op6 rs rt imm).toNat : Int) = op6.toNat * 2 ^ 26 + rs * 2 ^ 21 + rt * 2 ^ 16 + imm % 2 ^ 16 := by
  simp only [wordI, toNat_append_eq_add, toNat_ofNat_reg, BitVec.toNat_ofInt]
  omega

theorem wordJ_toNat {idx : Int} (h : idx26Ok idx = true) : ((wordJ idx).toNat : Int) = 0x08000000 + idx := by
  have := ofInt26_toNat h
  simp only [wordJ, toNat_append_eq_add, BitVec.toNat_ofNat]
  omega

/-- Settles O1: the round trip goes through the fields of the word, and the sum is that of the appended fields. -/
theorem encodeDecodeInverse : Obligations.EncodeDecodeInverse := by
  unfold Obligations.EncodeDecodeInverse
  refine ⟨fun i h => decodeWord_encode h, fun w i h => encode_of_decodeWord h, wordR_toNat _, wordR_toNat _, ?_,
    fun idx h => wordJ_toNat h, rfl⟩
  intro rs rt imm _
  exact ⟨wordI_toNat _ rs rt imm, wordI_toNat _ rs rt imm, wordI_toNat _ rs rt imm, wordI_toNat _ rs rt imm,
    wordI_toNat _ rs rt imm⟩

/-- Settles O4: each sample word by evaluation of the decoder. -/
theorem sampleWordsDecode : Obligations.SampleWordsDecode := by
  unfold Obligations.SampleWordsDecode
  decide

/-! ### The opcode map (R75) -/

/-- The mask of the I and J rows keeps the major opcode. -/
theorem and_op6Mask (w : Word) : w &&& 0xFC000000 = op6Of w ++ 0#26 := by
  apply BitVec.eq_of_getLsbD_eq
  intro i hi
  simp only [op6Of, BitVec.getLsbD_and, BitVec.getLsbD_extractLsb', BitVec.getLsbD_append]
  interval_cases i <;> simp

/-- The mask of the R rows keeps the major opcode, `shamt` and `funct`. -/
theorem and_functMask (w : Word) : w &&& 0xFC0007FF = op6Of w ++ 0#15 ++ shamtOf w ++ functOf w := by
  apply BitVec.eq_of_getLsbD_eq
  intro i hi
  simp only [op6Of, shamtOf, functOf, BitVec.getLsbD_and, BitVec.getLsbD_extractLsb', BitVec.getLsbD_append]
  interval_cases i <;> simp

/-- A word that selects a row with the mask of the major opcode has the row's major opcode. -/
theorem op6Of_of_selects {w : Word} {name : String} {c : BitVec 6}
    (h : OpcodeRow.selects ⟨name, c ++ 0#26, 0xFC000000⟩ w = true) : op6Of w = c := by
  simp only [OpcodeRow.selects, beq_iff_eq, and_op6Mask] at h
  exact (BitVec.append_left_inj _).mp h

/-- A word that selects an R row has the major opcode 0, `shamt` 0 and the row's `funct`. -/
theorem fields_of_selectsR {w : Word} {name : String} {f : BitVec 6}
    (h : OpcodeRow.selects ⟨name, 0#26 ++ f, 0xFC0007FF⟩ w = true) : op6Of w = 0 ∧ shamtOf w = 0 ∧ functOf w = f := by
  simp only [OpcodeRow.selects, beq_iff_eq, and_functMask] at h
  have hn := congrArg BitVec.toNat h
  simp only [toNat_append_eq_add, BitVec.toNat_ofNat] at hn
  have ho : (op6Of w).toNat = 0 := by omega
  have hs : (shamtOf w).toNat = 0 := by omega
  have hf : (functOf w).toNat = f.toNat := by omega
  exact ⟨BitVec.eq_of_toNat_eq ho, BitVec.eq_of_toNat_eq hs, BitVec.eq_of_toNat_eq hf⟩

/-- The row a word selects names the instruction it decodes to. -/
theorem decodeWord_of_selects {w : Word} {r : OpcodeRow} (hr : r ∈ opcodeMap) (h : r.selects w = true) :
    ∃ i, decodeWord w = .ok i ∧ r.mnemonic = i.mnemonic := by
  simp only [opcodeMap, List.mem_cons, List.not_mem_nil, or_false] at hr
  obtain rfl | rfl | rfl | rfl | rfl | rfl | rfl | rfl | rfl := hr
  · exact ⟨.add (rdOf w).toNat (rsOf w).toNat (rtOf w).toNat, by
      simp [decodeWord, fields_of_selectsR (f := 0x20) h], rfl⟩
  · exact ⟨.sub (rdOf w).toNat (rsOf w).toNat (rtOf w).toNat, by
      simp [decodeWord, fields_of_selectsR (f := 0x22) h], rfl⟩
  · exact ⟨.addi (rtOf w).toNat (rsOf w).toNat (immOf w), by
      simp [decodeWord, op6Of_of_selects (c := 0x08) h], rfl⟩
  · exact ⟨.subi (rtOf w).toNat (rsOf w).toNat (immOf w), by
      simp [decodeWord, op6Of_of_selects (c := 0x3B) h], rfl⟩
  · exact ⟨.lw (rtOf w).toNat (immOf w) (rsOf w).toNat, by
      simp [decodeWord, op6Of_of_selects (c := 0x23) h], rfl⟩
  · exact ⟨.sw (rtOf w).toNat (immOf w) (rsOf w).toNat, by
      simp [decodeWord, op6Of_of_selects (c := 0x2B) h], rfl⟩
  · exact ⟨.beq (rsOf w).toNat (rtOf w).toNat (immOf w), by
      simp [decodeWord, op6Of_of_selects (c := 0x04) h], rfl⟩
  · exact ⟨.j (idxOf w), by
      simp [decodeWord, op6Of_of_selects (c := 0x02) h], rfl⟩
  · refine ⟨.halt, ?_, rfl⟩
    obtain rfl : w = 0xFC000000 := BitVec.and_allOnes.symm.trans (beq_iff_eq.mp h)
    rfl

theorem selects_of_op6Of {w : Word} {name : String} {c : BitVec 6} (h : op6Of w = c) :
    OpcodeRow.selects ⟨name, c ++ 0#26, 0xFC000000⟩ w = true :=
  beq_iff_eq.mpr (h ▸ and_op6Mask w)

theorem selects_of_fieldsR {w : Word} {name : String} {f : BitVec 6}
    (h : op6Of w = 0 ∧ shamtOf w = 0 ∧ functOf w = f) : OpcodeRow.selects ⟨name, 0#26 ++ f, 0xFC0007FF⟩ w = true := by
  obtain ⟨ho, hs, hf⟩ := h
  have hw := and_functMask w
  rw [ho, hs, hf] at hw
  exact beq_iff_eq.mpr hw

/-- What a word decodes to is named by a row it selects. -/
theorem selects_of_decodeWord {w : Word} {i : Instr} (h : decodeWord w = .ok i) :
    ∃ r ∈ opcodeMap, r.selects w = true ∧ r.mnemonic = i.mnemonic := by
  obtain ⟨hf, rfl⟩ | ⟨hf, rfl⟩ | ⟨ho, rfl⟩ | ⟨ho, rfl⟩ | ⟨ho, rfl⟩ | ⟨ho, rfl⟩ | ⟨ho, rfl⟩ | ⟨ho, rfl⟩ | ⟨rfl, rfl⟩ :=
    decodeWord_cases h
  · exact ⟨⟨"add", 0x00000020, 0xFC0007FF⟩, by simp [opcodeMap], selects_of_fieldsR hf, rfl⟩
  · exact ⟨⟨"sub", 0x00000022, 0xFC0007FF⟩, by simp [opcodeMap], selects_of_fieldsR hf, rfl⟩
  · exact ⟨⟨"addi", 0x20000000, 0xFC000000⟩, by simp [opcodeMap], selects_of_op6Of ho, rfl⟩
  · exact ⟨⟨"subi", 0xEC000000, 0xFC000000⟩, by simp [opcodeMap], selects_of_op6Of ho, rfl⟩
  · exact ⟨⟨"lw", 0x8C000000, 0xFC000000⟩, by simp [opcodeMap], selects_of_op6Of ho, rfl⟩
  · exact ⟨⟨"sw", 0xAC000000, 0xFC000000⟩, by simp [opcodeMap], selects_of_op6Of ho, rfl⟩
  · exact ⟨⟨"beq", 0x10000000, 0xFC000000⟩, by simp [opcodeMap], selects_of_op6Of ho, rfl⟩
  · exact ⟨⟨"j", 0x08000000, 0xFC000000⟩, by simp [opcodeMap], selects_of_op6Of ho, rfl⟩
  · exact ⟨⟨"halt", 0xFC000000, 0xFFFFFFFF⟩, by simp [opcodeMap], rfl, rfl⟩

/-- No two rows have one mnemonic. -/
theorem eq_of_mnemonic_eq : ∀ r ∈ opcodeMap, ∀ r' ∈ opcodeMap, r.mnemonic = r'.mnemonic → r = r' := by
  decide

/-- Settles O2: rows and answers of the decoder correspond by their mnemonic, which is each row's own. -/
theorem decodeFollowsOpcodeMap : Obligations.DecodeFollowsOpcodeMap := by
  unfold Obligations.DecodeFollowsOpcodeMap
  intro w
  refine ⟨fun i h => selects_of_decodeWord h, ⟨?_, ?_⟩, ?_⟩
  · intro hbad r hr
    refine Bool.eq_false_iff.mpr fun hsel => ?_
    obtain ⟨i, hi, -⟩ := decodeWord_of_selects hr hsel
    simp [hbad] at hi
  · intro hnone
    cases hd : decodeWord w with
    | error e => rw [eq_malformed_of_decodeWord hd]
    | ok i =>
      obtain ⟨r, hr, hsel, -⟩ := selects_of_decodeWord hd
      simp [hnone r hr] at hsel
  · intro r hr r' hr' hsel hsel'
    obtain ⟨i, hi, hm⟩ := decodeWord_of_selects hr hsel
    obtain ⟨i', hi', hm'⟩ := decodeWord_of_selects hr' hsel'
    obtain rfl : i = i' := Except.ok.inj (hi.symm.trans hi')
    exact eq_of_mnemonic_eq r hr r' hr' (hm.trans hm'.symm)

end Sys2Proof

namespace Sys2Proof.Machine

/-! ### Placement and labels (R84, R86) -/

theorem placeFrom_cons_eq_some {k : Nat} {i : Instr} {p : List Instr} {m : InstrStore} :
    placeFrom k (i :: p) = some m ↔
      i.wellFormed = true ∧ ∃ m', placeFrom (k + 1) p = some m' ∧ m = (4 * k, encode i) :: m' := by
  rw [placeFrom]
  unfold assembleOne
  cases i.wellFormed <;> cases placeFrom (k + 1) p <;> simp [eq_comm]

/-- Every address of a placed program is four times one of its line numbers. -/
theorem mem_placeFrom {p : List Instr} {k : Nat} {m : InstrStore} (h : placeFrom k p = some m) :
    ∀ e ∈ m, ∃ n, e.1 = 4 * n ∧ k ≤ n ∧ n < k + p.length := by
  induction p generalizing k m with
  | nil => cases h; simp
  | cons i p ih =>
    obtain ⟨-, m', hm', rfl⟩ := placeFrom_cons_eq_some.mp h
    intro e he
    obtain rfl | he := List.mem_cons.mp he
    · exact ⟨k, rfl, le_rfl, by simp⟩
    · obtain ⟨n, hn, hlo, hhi⟩ := ih hm' e he
      exact ⟨n, hn, by omega, by simp only [List.length_cons]; omega⟩

theorem risingFrom_placeFrom {p : List Instr} {k : Nat} {m : InstrStore} (h : placeFrom k p = some m) :
    risingFrom (4 * k) m = true := by
  induction p generalizing k m with
  | nil => cases h; rfl
  | cons i p ih =>
    obtain ⟨-, m', hm', rfl⟩ := placeFrom_cons_eq_some.mp h
    simp only [risingFrom, le_refl, decide_true, Bool.true_and]
    exact risingFrom_mono _ (ih hm') (by omega)

/-- The word on line `n` of the rest of a program from line `k` on. -/
theorem lookupAt_placeFrom {p : List Instr} {k n : Nat} {i : Instr} {m : InstrStore} (h : placeFrom k p = some m)
    (hn : p[n]? = some i) : lookupAt (4 * (k + n)) m = some (encode i) := by
  induction p generalizing k n m with
  | nil => simp at hn
  | cons j p ih =>
    obtain ⟨-, m', hm', rfl⟩ := placeFrom_cons_eq_some.mp h
    cases n with
    | zero =>
      obtain rfl : j = i := by simpa using hn
      simp [lookupAt]
    | succ n =>
      have hne : 4 * k ≠ 4 * (k + (n + 1)) := by omega
      have := ih hm' (n := n) (by simpa using hn)
      simpa [lookupAt, hne, Nat.add_assoc, Nat.add_comm 1 n] using this

theorem lookupAt_eq_none {a : Nat} {m : List (Nat × Word)} (h : ∀ e ∈ m, e.1 ≠ a) : lookupAt a m = none := by
  induction m with
  | nil => rfl
  | cons e m ih =>
    simp only [List.mem_cons, forall_eq_or_imp] at h
    simp [lookupAt, h.1, ih h.2]

/-- Settles O41: by induction over the lines, the entries are at four times the line numbers, in rising order. -/
theorem programPlacedAtMultiplesOfFour : Obligations.ProgramPlacedAtMultiplesOfFour := by
  unfold Obligations.ProgramPlacedAtMultiplesOfFour
  intro p m h hfit
  have hmem := mem_placeFrom h
  refine ⟨?_, ?_, ?_⟩
  · simp only [InstrStore.wf, Bool.and_eq_true, List.all_eq_true, decide_eq_true_eq]
    refine ⟨⟨risingFrom_placeFrom h, ?_⟩, ?_⟩
    · intro e he
      obtain ⟨n, hn, -, hlt⟩ := hmem e he
      omega
    · intro e he
      obtain ⟨n, hn, -, -⟩ := hmem e he
      omega
  · intro k i hk
    have hlt : k < p.length := (List.getElem?_eq_some_iff.mp hk).1
    have haddr : (BitVec.ofNat 32 (4 * k)).toNat = 4 * (0 + k) := by
      rw [BitVec.toNat_ofNat, Nat.mod_eq_of_lt (by omega), Nat.zero_add]
    rw [InstrStore.fetch, haddr]
    exact lookupAt_placeFrom h hk
  · intro a ha
    refine lookupAt_eq_none fun e he heq => ?_
    obtain ⟨n, hn, -, hlt⟩ := hmem e he
    omega

/-- Settles O42: the resolved operand is an exact quotient by 4, and words are integers modulo 2^32. -/
theorem resolvedLabelsLeadToTarget : Obligations.ResolvedLabelsLeadToTarget := by
  unfold Obligations.ResolvedLabelsLeadToTarget
  intro target here
  constructor
  · intro h
    have hoff : here + 4 + branchOffset target here * 4 = target := by
      unfold branchOffset
      omega
    calc branchTarget (BitVec.ofInt 32 here) (BitVec.ofInt 32 (branchOffset target here))
        = BitVec.ofInt 32 (here + 4 + branchOffset target here * 4) := by
          rw [BitVec.ofInt_add, BitVec.ofInt_add, BitVec.ofInt_mul]; rfl
      _ = BitVec.ofInt 32 target := by rw [hoff]
  · intro h
    have hidx : jumpIndex target * 4 = target := by
      unfold jumpIndex
      omega
    calc jumpTarget (BitVec.ofInt 32 (jumpIndex target))
        = BitVec.ofInt 32 (jumpIndex target * 4) := by rw [BitVec.ofInt_mul]; rfl
      _ = BitVec.ofInt 32 target := by rw [hidx]

end Sys2Proof.Machine

/-! PROOFS. The architectural view: every cycle advances it by the instruction Decode takes, or not at all
(45_pipeline_stages.md section 8). -/

namespace Sys2Proof.Machine

/-! ### An instruction completed on a state with next address `p` -/

/-- The architectural state that Execute meets, with next address `p`: MEM_WB and EX_MEM completed. -/
def State.archAtExecute (s : State) (p : Word) : Arch :=
  completeOpt ExMem.complete s.exMem (completeOpt MemWb.complete s.memWb ⟨some p, s.x, s.dmem⟩)

/-- The architectural state behind this cycle's Execute, with next address `p`. -/
def State.archBehindExecute (s : State) (p : Word) : Arch :=
  completeOpt ExMem.complete s.exMemNext (s.archAtExecute p)

/-- `halt` has been performed whatever the next address, or the next address is the given one and nothing else depends
on it. -/
def EndedOrNext (g : Word → Arch) : Prop :=
  ∃ x d, (∀ p, g p = ⟨none, x, d⟩) ∨ (∀ p, g p = ⟨some p, x, d⟩)

theorem EndedOrNext.memWb {g : Word → Arch} (h : EndedOrNext g) (w : Option MemWb) :
    EndedOrNext fun p => completeOpt MemWb.complete w (g p) := by
  cases w with
  | none => exact h
  | some w =>
    obtain ⟨x, d, h | h⟩ := h
    · exact ⟨x, d, .inl fun p => by simp [h]⟩
    · by_cases hop : w.op = .halt
      · exact ⟨x, d, .inl fun p => by simp [h, MemWb.complete_of_halt hop]⟩
      · exact ⟨w.writeTo x, d, .inr fun p => by simp [h, MemWb.complete_of_not_halt hop]⟩

theorem EndedOrNext.exMem {g : Word → Arch} (h : EndedOrNext g) (e : Option ExMem) :
    EndedOrNext fun p => completeOpt ExMem.complete e (g p) := by
  cases e with
  | none => exact h
  | some e =>
    obtain ⟨x, d, h | h⟩ := h
    · exact ⟨x, d, .inl fun p => by simp [h]⟩
    · by_cases hop : e.op = .halt
      · exact ⟨x, e.storeTo d, .inl fun p => by simp [h, ExMem.complete_of_halt hop]⟩
      · exact ⟨(e.perform d).writeTo x, e.storeTo d, .inr fun p => by simp [h, ExMem.complete_of_not_halt hop]⟩

theorem State.archAtExecute_endedOrNext (s : State) : EndedOrNext s.archAtExecute :=
  EndedOrNext.exMem (EndedOrNext.memWb ⟨s.x, s.dmem, .inr fun _ => rfl⟩ s.memWb) s.exMem

theorem State.archBehindExecute_endedOrNext (s : State) : EndedOrNext s.archBehindExecute :=
  s.archAtExecute_endedOrNext.exMem s.exMemNext

theorem State.arch_of_running {s : State} (hr : s.runState = .running) :
    s.arch = completeOpt IdEx.complete s.idEx (s.archAtExecute s.nextAddr) := by
  simp [State.arch, hr, State.archAtExecute]

theorem State.arch_of_stopped {s : State} (hr : s.runState ≠ .running) : s.arch = ⟨none, s.x, s.dmem⟩ := by
  unfold State.arch
  cases h : s.runState <;> simp_all

/-! ### Writeback and Memory of one cycle -/

/-- MEM_WB without `halt` is completed by this cycle's Writeback. -/
theorem State.complete_memWb {s : State} (hh : s.halting = false) (p : Word) (d : Memory) :
    completeOpt MemWb.complete s.memWb ⟨some p, s.x, d⟩ = ⟨some p, s.regsAfterWb, d⟩ := by
  cases hw : s.memWb with
  | none => rw [State.regsAfterWb_none hw]; rfl
  | some w =>
    have hop : w.op ≠ .halt := by simpa [State.halting, hw] using hh
    rw [State.regsAfterWb_some hw]
    exact MemWb.complete_of_not_halt hop _ _ _

theorem State.archAtExecute_of_not_halting {s : State} (hh : s.halting = false) (p : Word) :
    s.archAtExecute p = completeOpt ExMem.complete s.exMem ⟨some p, s.regsAfterWb, s.dmem⟩ := by
  rw [State.archAtExecute, State.complete_memWb hh]

/-- A wait cycle completes MEM_WB and leaves EX_MEM to be completed (R202). -/
theorem State.archAtExecute_of_wait {s : State} {y : Option MicroOp} (hh : s.halting = false) (hw : s.memWait = true)
    (p : Word) : (s.cycleNext y).archAtExecute p = s.archAtExecute p := by
  obtain ⟨hex, -, -, -, hwb, hmem, -⟩ := State.wait_holds (y := y) hw
  rw [State.archAtExecute_of_not_halting hh, State.archAtExecute]
  simp [hex, hwb, hmem]

/-- Completing what a perform cycle hands to Writeback is completing EX_MEM (R182). -/
theorem State.complete_performed {s : State} (hw : s.memWait = false) (p : Word) :
    completeOpt MemWb.complete s.memWbNext ⟨some p, s.regsAfterWb, s.dmemNext⟩ =
      completeOpt ExMem.complete s.exMem ⟨some p, s.regsAfterWb, s.dmem⟩ := by
  unfold State.memWbNext State.dmemNext
  cases s.exMem with
  | none => rfl
  | some e => simp [hw, ExMem.complete]

/-- A cycle without wait completes MEM_WB, and EX_MEM but for its Writeback. -/
theorem State.archAtExecute_of_run {s : State} {y : Option MicroOp} (hh : s.halting = false) (hw : s.memWait = false)
    (p : Word) : (s.cycleNext y).archAtExecute p = s.archBehindExecute p := by
  rw [State.archBehindExecute, State.archAtExecute_of_not_halting hh, ← State.complete_performed hw]
  rfl

/-! ### Execute of one cycle -/

/-- Where the run has not ended, the operands of Execute are the registers of the architectural state it meets
(R171, R172). -/
theorem State.Inv.operand_eq_arch {s : State} (hi : s.Inv) (hh : s.halting = false) {i : IdEx} (hx : s.idEx = some i)
    {p : Word} {x : RegFile} {d : Memory} (ha : s.archAtExecute p = ⟨some p, x, d⟩) {r : Reg}
    (hr : i.rs = some r ∨ i.rt = some r) : s.operand r = x.read r := by
  rw [State.archAtExecute_of_not_halting hh] at ha
  cases he : s.exMem with
  | none =>
    rw [he] at ha
    rw [State.operand_of_no_bypass (by simp [he]), (Arch.mk.inj ha).2.1]
  | some e =>
    rw [he, completeOpt_some] at ha
    by_cases hop : e.op = .halt
    · rw [ExMem.complete_of_halt hop] at ha
      simp at ha
    · rw [ExMem.complete_of_not_halt hop] at ha
      rw [hi.operand_eq he hx hr, (Arch.mk.inj ha).2.1]

/-- Completing ID_EX is completing what Execute makes of it, on the address it redirects to. -/
theorem State.Inv.complete_idEx {s : State} (hi : s.Inv) (hh : s.halting = false) (hw : s.memWait = false) (p : Word) :
    completeOpt IdEx.complete s.idEx (s.archAtExecute p) = s.archBehindExecute (s.redirect.getD p) := by
  rw [State.archBehindExecute]
  cases hx : s.idEx with
  | none => simp [State.exMemNext, State.redirect, hx, hw]
  | some i =>
    rw [State.exMemNext_of_execute hw hx, State.redirect_of_execute hw hx, completeOpt_some, completeOpt_some]
    obtain ⟨x, d, ha | ha⟩ := s.archAtExecute_endedOrNext
    · simp [ha]
    · have hrs : s.operandOrZero i.rs = match i.rs with | some r => x.read r | none => 0 := by
        cases hr : i.rs with
        | none => rfl
        | some r => exact hi.operand_eq_arch hh hx (ha p) (.inl hr)
      have hrt : s.operandOrZero i.rt = match i.rt with | some r => x.read r | none => 0 := by
        cases hr : i.rt with
        | none => rfl
        | some r => exact hi.operand_eq_arch hh hx (ha p) (.inr hr)
      rw [ha, ha, hrs, hrt]
      rfl

theorem State.Inv.arch_eq_behindExecute {s : State} (hi : s.Inv) (hr : s.runState = .running) (hh : s.halting = false)
    (hw : s.memWait = false) : s.arch = s.archBehindExecute (s.redirect.getD s.nextAddr) := by
  rw [State.arch_of_running hr, hi.complete_idEx hh hw]

/-! ### The cycle in which `halt` retires -/

theorem State.halting_eq_true {s : State} : s.halting = true ↔ ∃ w, s.memWb = some w ∧ w.op = .halt := by
  unfold State.halting
  cases s.memWb <;> simp

/-- A memory operation that still waits is not performed, and nothing else writes the data store (R181, R182). -/
theorem State.dmemNext_of_fresh {s : State}
    (h : ∀ e, s.exMem = some e → e.isMemOp = true → 0 < s.memCyclesLeft) : s.dmemNext = s.dmem := by
  unfold State.dmemNext
  cases he : s.exMem with
  | none => rfl
  | some e =>
    cases hm : e.isMemOp with
    | true =>
      have hwait : s.memWait = true := State.memWait_eq_true.mpr ⟨e, he, h e he hm⟩
      simp [hwait]
    | false =>
      have hst : e.ctrl.memWrite = false := (Bool.or_eq_false_iff.mp hm).2
      simp [ExMem.storeTo, hst]

section Halting
variable {s : State} (hi : s.Inv) (hh : s.halting = true)
include hi hh

/-- Writeback of `halt` writes no register (R150). -/
theorem State.Inv.regsAfterWb_of_halting : s.regsAfterWb = s.x := by
  obtain ⟨w, hw, hop⟩ := State.halting_eq_true.mp hh
  rw [State.regsAfterWb_some hw, MemWb.writeTo, hi.ctrl_memWb hw, hop]
  rfl

/-- Behind a retiring `halt` no store is performed: it is still waiting (R153). -/
theorem State.Inv.dmemNext_of_halting : s.dmemNext = s.dmem := by
  obtain ⟨w, hw, -⟩ := State.halting_eq_true.mp hh
  exact State.dmemNext_of_fresh fun e he hm => Nat.lt_of_lt_of_le Nat.two_pos (hi.counterFresh e w he hw hm)

end Halting

/-- With `halt` in MEM_WB nothing in flight has an effect (R153). -/
theorem State.arch_of_halting {s : State} (hr : s.runState = .running) (hh : s.halting = true) :
    s.arch = ⟨none, s.x, s.dmem⟩ := by
  obtain ⟨w, hw, hop⟩ := State.halting_eq_true.mp hh
  rw [State.arch_of_running hr, State.archAtExecute, hw, completeOpt_some, MemWb.complete_of_halt hop]
  cases s.exMem <;> cases s.idEx <;> simp

theorem State.Inv.arch_cycleNext_of_halting {s : State} (hi : s.Inv) (hr : s.runState = .running)
    (hh : s.halting = true) (y : Option MicroOp) : (s.cycleNext y).arch = s.arch := by
  rw [State.arch_of_halting hr hh, State.arch_of_stopped (by simp [hh])]
  simp [hi.regsAfterWb_of_halting hh, hi.dmemNext_of_halting hh]

/-! ### The next address after a cycle -/

/-- Where Decode runs, Fetch leaves the fetch address as the next address, fetched or not (R163, R165, R206). -/
theorem State.nextAddr_of_idRun {s : State} {y : Option MicroOp} (h : s.idRun y = true) :
    (s.cycleNext y).nextAddr = s.fetchAddr := by
  unfold State.nextAddr
  rw [State.cycleNext_ifId, State.cycleNext_pc]
  cases hf : s.ifIdNext y with
  | some f =>
    obtain ⟨-, hf⟩ | ⟨hheld, -⟩ := State.ifIdNext_eq_some.mp hf
    · exact (State.fetched_eq_some.mp hf).2
    · simp [h] at hheld
  | none =>
    cases hrun : s.ifRun y with
    | false => exact State.pcNext_of_not_ifRun hrun
    | true =>
      have hnone : s.fetched = none := by simpa [State.ifIdNext, hrun] using hf
      exact State.pcNext_of_not_fetched hnone

/-- Where Decode does not run, IF_ID and `pc` are held (R165). -/
theorem State.Inv.front_held {s : State} (hi : s.Inv) {y : Option MicroOp} (h : s.idRun y = false) :
    s.ifIdNext y = s.ifId ∧ s.pcNext y = s.pc := by
  have hif : s.ifRun y = false := by simp [State.ifRun, h]
  refine ⟨by simp [State.ifIdNext, hif, State.branchStall_of_not_idRun h], ?_⟩
  rw [State.pcNext_of_not_ifRun hif, hi.fetchAddr_of_held h]

theorem State.Inv.nextAddr_held {s : State} (hi : s.Inv) {y : Option MicroOp} (h : s.idRun y = false) :
    (s.cycleNext y).nextAddr = s.nextAddr := by
  obtain ⟨hif, hpc⟩ := hi.front_held h
  simp [State.nextAddr, hif, hpc]

theorem State.nextAddr_of_ifId {s : State} {f : IfId} (h : s.ifId = some f) : s.nextAddr = f.pc := by
  simp [State.nextAddr, h]

/-! ### The architectural view after a cycle -/

theorem State.loadUse_of_not_idRun {s : State} {y : Option MicroOp} (hw : s.memWait = false) (h : s.idRun y = false) :
    s.loadUse y = true := by
  simpa [State.idRun, hw] using h

/-- Without a wait, a cycle in which Decode takes nothing puts a bubble into ID_EX (R166, R167). -/
theorem State.idExNext_of_not_taken {s : State} {y : Option MicroOp} (hw : s.memWait = false)
    (h : s.ifId = none ∨ s.idRun y = false) : s.idExNext y = none := by
  obtain hf | hrun := h
  · simp [State.idExNext, hw, hf]
  · simp [State.idExNext, hw, State.loadUse_of_not_idRun hw hrun]

theorem State.cycleNext_running {s : State} (y : Option MicroOp) (hr : s.runState = .running)
    (hh : s.halting = false) : (s.cycleNext y).runState = .running := by
  simp [hr, hh]

/-- A cycle in which Decode takes nothing leaves the architectural state. -/
theorem State.Inv.arch_cycleNext_of_not_taken {s : State} (hi : s.Inv) (hr : s.runState = .running)
    {y : Option MicroOp} (h : s.ifId = none ∨ s.idRun y = false) : (s.cycleNext y).arch = s.arch := by
  cases hh : s.halting with
  | true => exact hi.arch_cycleNext_of_halting hr hh y
  | false =>
    rw [State.arch_of_running (State.cycleNext_running y hr hh)]
    cases hw : s.memWait with
    | true =>
      rw [hi.nextAddr_held (by simp [State.idRun, hw]), State.archAtExecute_of_wait hh hw, State.cycleNext_idEx,
        (State.wait_holds hw).2.1, State.arch_of_running hr]
    | false =>
      have hnext : (s.cycleNext y).nextAddr = s.redirect.getD s.nextAddr := by
        cases hrun : s.idRun y with
        | true =>
          have hf : s.ifId = none := by simpa [hrun] using h
          rw [State.nextAddr_of_idRun hrun, State.fetchAddr, State.nextAddr, hf]
        | false =>
          obtain ⟨f, hf⟩ : ∃ f, s.ifId = some f := by
            obtain ⟨-, i, f, m, -, hf, -⟩ := State.loadUse_eq_true.mp (State.loadUse_of_not_idRun hw hrun)
            exact ⟨f, hf⟩
          rw [hi.nextAddr_held hrun, hi.no_redirect hf, Option.getD_none]
      rw [State.cycleNext_idEx, State.idExNext_of_not_taken hw h, completeOpt_none,
        State.archAtExecute_of_run hh hw, hnext, hi.arch_eq_behindExecute hr hh hw]

/-- A cycle in which Decode takes the instruction `i` advances the architectural state by its sequential effect. -/
theorem State.Inv.arch_cycleNext_of_taken {s : State} (hi : s.Inv) (hr : s.runState = .running) {f : IfId} {i : Instr}
    {m : MicroOp} (hf : s.ifId = some f) (hm : microOp i = some m) (hrun : s.idRun (some m) = true) :
    (s.cycleNext (some m)).arch = s.arch.effect i ∧ ∀ p, s.arch.pc = some p → p = f.pc := by
  cases hh : s.halting with
  | true =>
    have hend : s.arch.pc = none := by rw [State.arch_of_halting hr hh]
    refine ⟨?_, fun p hp => by simp [hend] at hp⟩
    rw [Arch.effect_of_ended i hend]
    exact hi.arch_cycleNext_of_halting hr hh _
  | false =>
    obtain ⟨hw, hl⟩ := State.idRun_eq_true.mp hrun
    have hidEx : s.idExNext (some m) = some { m with instr := f.instr, pc := f.pc } :=
      State.idExNext_eq_some.mpr (.inr ⟨hrun, f, m, hf, rfl, rfl⟩)
    have hnext : (s.cycleNext (some m)).nextAddr = f.pc + 4 := by
      rw [State.nextAddr_of_idRun hrun, hi.fetchAddr_of_ifId hf, (hi.ifIdFetched f hf).2]
    have hs : s.arch = s.archBehindExecute f.pc := by
      rw [hi.arch_eq_behindExecute hr hh hw, hi.no_redirect hf, State.nextAddr_of_ifId hf, Option.getD_none]
    rw [State.arch_of_running (State.cycleNext_running _ hr hh), State.cycleNext_idEx, hidEx, completeOpt_some,
      State.archAtExecute_of_run hh hw, hnext, hs]
    obtain ⟨x, d, ha | ha⟩ := s.archBehindExecute_endedOrNext
    · simp [ha, Arch.effect]
    · rw [ha, ha, IdEx.complete_issued hm]
      exact ⟨rfl, fun p hp => (Option.some.inj hp).symm⟩

/-- One instruction of the sequential machine, where it goes on. -/
theorem Arch.next_of_decode {imem : InstrStore} {a : Arch} {p w : Word} {i : Instr} (hp : a.pc = some p)
    (hw : imem.fetch p = some w) (hd : decodeWord w = .ok i) : a.next imem = some (a.effect i) := by
  simp [Arch.next, Arch.effect, hp, hw, hd]

/-- What the decoder answers has a MicroOp, which is the one in Decode. -/
theorem State.inDecode_of_decode {s : State} {f : IfId} {i : Instr} (hf : s.ifId = some f)
    (hd : decodeWord f.instr = .ok i) : ∃ m, microOp i = some m ∧ s.inDecode = some m := by
  obtain ⟨op, hop⟩ := microOp_of_decodeWord hd
  exact ⟨_, hop, (State.inDecode_of_ifId hf).trans (microOpOfWord_eq_some.mpr ⟨i, hd, hop⟩)⟩

/-- Settles O51: by the two cases of the cycle, with an instruction taken in Decode and without. -/
theorem stepRefinesSequential : Obligations.StepRefinesSequential := by
  unfold Obligations.StepRefinesSequential
  intro s t hi hstep
  constructor
  · intro f i hr hf hd hrun
    obtain rfl := step_next_of_running hr hstep
    obtain ⟨m, hm, hy⟩ := State.inDecode_of_decode hf hd
    rw [hy] at hrun ⊢
    obtain ⟨heff, hpc⟩ := hi.arch_cycleNext_of_taken hr hf hm hrun
    refine ⟨heff, fun p hp => ⟨hpc p hp, ?_⟩⟩
    have hfetch : s.imem.fetch p = some f.instr := hpc p hp ▸ (hi.ifIdFetched f hf).1
    rw [heff, Arch.next_of_decode hp hfetch hd]
  · intro h
    obtain ⟨hr, -, rfl⟩ | ⟨-, rfl⟩ := step_next_cases hstep
    · exact hi.arch_cycleNext_of_not_taken hr (h.resolve_left (fun hn => hn hr))
    · rfl

end Sys2Proof.Machine

/-! PROOFS. Whole runs and the sequential machine: a halted run is one of it, one that never faults reaches its `halt`,
and the latency draws do not change the result (45_pipeline_stages.md section 8, 20_memory.md section 4). -/

namespace Sys2Proof.Machine

/-! ### The sequential machine's runs -/

theorem Arch.run_succ_of_run {imem : InstrStore} {n : Nat} {a b c : Arch} (h : Arch.run imem n a = some b)
    (hn : b.next imem = some c) : Arch.run imem (n + 1) a = some c := by
  induction n generalizing a with
  | zero =>
    obtain rfl : a = b := Option.some.inj h
    simp [Arch.run, hn]
  | succ n ih =>
    rw [Arch.run] at h ⊢
    cases ha : a.next imem with
    | none => simp [ha] at h
    | some d =>
      rw [ha] at h
      exact ih h

theorem Arch.run_add {imem : InstrStore} {m : Nat} {a b : Arch} (n : Nat) (h : Arch.run imem m a = some b) :
    Arch.run imem (m + n) a = Arch.run imem n b := by
  induction m generalizing a with
  | zero =>
    obtain rfl : a = b := Option.some.inj h
    rw [Nat.zero_add]
  | succ m ih =>
    rw [Nat.add_right_comm, Arch.run]
    rw [Arch.run] at h
    cases ha : a.next imem with
    | none => simp [ha] at h
    | some d =>
      rw [ha] at h
      exact ih h

/-- After `halt` the sequential machine performs no more instructions (R153). -/
theorem Arch.run_of_ended {imem : InstrStore} {n : Nat} {a b : Arch} (ha : a.pc = none)
    (h : Arch.run imem n a = some b) : n = 0 := by
  cases n with
  | zero => rfl
  | succ n => simp [Arch.run, Arch.next, ha] at h

/-- No run of the sequential machine is longer than one that ends in `halt`. -/
theorem Arch.run_le_of_ended {imem : InstrStore} {m n : Nat} {a b c : Arch} (hm : Arch.run imem m a = some b)
    (hb : b.pc = none) (hn : Arch.run imem n a = some c) : n ≤ m := by
  by_contra hlt
  obtain ⟨k, rfl⟩ : ∃ k, n = m + (k + 1) := ⟨n - m - 1, by omega⟩
  rw [Arch.run_add _ hm] at hn
  exact absurd (Arch.run_of_ended hb hn) (by omega)

/-- The sequential machine has one end. -/
theorem Arch.haltsAfter_unique {imem : InstrStore} {n n' : Nat} {a b b' : Arch} (h : Arch.haltsAfter imem n a b)
    (h' : Arch.haltsAfter imem n' a b') : n = n' ∧ b = b' := by
  obtain ⟨hrun, hb⟩ := h
  obtain ⟨hrun', hb'⟩ := h'
  have hle := Arch.run_le_of_ended hrun hb hrun'
  have hge := Arch.run_le_of_ended hrun' hb' hrun
  obtain rfl : n = n' := by omega
  exact ⟨rfl, Option.some.inj (hrun.symm.trans hrun')⟩

/-! ### How many instructions of the sequential machine a state stands for -/

/-- Of instructions in program order, those the sequential machine performs: up to the first `halt`, it included. -/
def performedOf : List Op → Nat
  | [] => 0
  | o :: os => if o = .halt then 1 else performedOf os + 1

theorem performedOf_append (l : List Op) (o : Op) :
    performedOf (l ++ [o]) = if .halt ∈ l then performedOf l else performedOf l + 1 := by
  induction l with
  | nil => simp [performedOf]
  | cons a l ih =>
    by_cases ha : a = .halt
    · simp [performedOf, ha]
    · have ha' : ¬ Op.halt = a := fun e => ha e.symm
      simp only [List.cons_append, performedOf, ha, if_false, ih, List.mem_cons, ha', false_or]
      split <;> rfl

/-- The opcodes in EX_MEM and ID_EX, in program order. -/
def State.behindWb (s : State) : List Op := (s.exMem.map ExMem.op).toList ++ (s.idEx.map (fun i => i.op)).toList

/-- The opcodes of the instructions past Decode, in program order. -/
def State.inFlight (s : State) : List Op := (s.memWb.map MemWb.op).toList ++ s.behindWb

/-- The number of instructions the sequential machine has performed in `State.arch`: those retired and those in flight,
`halt` included. -/
def State.performed (s : State) : Nat :=
  s.stats.instructionsRetired + if s.runState = .running then performedOf s.inFlight else 1

theorem MemWb.complete_pc_eq_none {w : MemWb} {a : Arch} :
    (w.complete a).pc = none ↔ a.pc = none ∨ w.op = .halt := by
  obtain ⟨_ | p, x, d⟩ := a
  · simp
  · by_cases h : w.op = .halt
    · simp [MemWb.complete_of_halt h, h]
    · simp [MemWb.complete_of_not_halt h, h]

theorem ExMem.complete_pc_eq_none {e : ExMem} {a : Arch} :
    (e.complete a).pc = none ↔ a.pc = none ∨ e.op = .halt := by
  obtain ⟨_ | p, x, d⟩ := a
  · simp
  · exact MemWb.complete_pc_eq_none (w := e.perform d)

theorem IdEx.complete_pc_eq_none {i : IdEx} {a : Arch} :
    (i.complete a).pc = none ↔ a.pc = none ∨ i.op = .halt := by
  obtain ⟨_ | p, x, d⟩ := a
  · simp
  · refine ExMem.complete_pc_eq_none.trans ?_
    simp [IdEx.execute]

theorem completeOpt_pc_eq_none {α : Type} {f : α → Arch → Arch} {op : α → Op}
    (hf : ∀ r a, (f r a).pc = none ↔ a.pc = none ∨ op r = .halt) (o : Option α) (a : Arch) :
    (completeOpt f o a).pc = none ↔ a.pc = none ∨ .halt ∈ (o.map op).toList := by
  cases o with
  | none => simp
  | some r => simpa [eq_comm] using hf r a

/-- The architectural view of a running machine has ended exactly when a `halt` is past Decode. -/
theorem State.arch_pc_eq_none {s : State} (hr : s.runState = .running) : s.arch.pc = none ↔ .halt ∈ s.inFlight := by
  rw [State.arch_of_running hr, State.archAtExecute,
    completeOpt_pc_eq_none (f := IdEx.complete) (fun _ _ => IdEx.complete_pc_eq_none),
    completeOpt_pc_eq_none (f := ExMem.complete) (fun _ _ => ExMem.complete_pc_eq_none),
    completeOpt_pc_eq_none (f := MemWb.complete) (fun _ _ => MemWb.complete_pc_eq_none)]
  simp [State.inFlight, State.behindWb, or_assoc]

/-! ### The instructions in flight after a cycle -/

theorem State.inFlight_of_wait {s : State} {y : Option MicroOp} (hw : s.memWait = true) :
    (s.cycleNext y).inFlight = s.behindWb := by
  obtain ⟨hex, hid, -, -, hwb, -⟩ := State.wait_holds (y := y) hw
  simp [State.inFlight, State.behindWb, hex, hid, hwb]

theorem State.inFlight_of_run {s : State} {y : Option MicroOp} (hw : s.memWait = false) :
    (s.cycleNext y).inFlight = s.behindWb ++ ((s.idExNext y).map (fun i => i.op)).toList := by
  unfold State.inFlight State.behindWb
  rw [State.cycleNext_memWb, State.cycleNext_exMem, State.cycleNext_idEx, State.memWbNext, State.exMemNext]
  cases s.exMem <;> cases s.idEx <;> simp [hw, ExMem.perform, IdEx.execute]

/-- What Writeback does not consume is still in flight behind it, and what it consumes is counted (R186). -/
theorem State.performed_of_not_halting {s : State} {y : Option MicroOp} (hr : s.runState = .running)
    (hh : s.halting = false) :
    s.performed = (s.cycleNext y).stats.instructionsRetired + performedOf s.behindWb := by
  unfold State.performed State.inFlight
  rw [State.cycleNext_stats, State.statsNext, State.retires]
  cases hw : s.memWb with
  | none => simp [hr, countIf]
  | some w =>
    have hop : w.op ≠ .halt := by simpa [State.halting, hw] using hh
    simp [hr, countIf, performedOf, hop]
    omega

/-- The cycle in which `halt` retires performs nothing more. -/
theorem State.performed_of_halting {s : State} {y : Option MicroOp} (hr : s.runState = .running)
    (hh : s.halting = true) : (s.cycleNext y).performed = s.performed := by
  obtain ⟨w, hw, hop⟩ := State.halting_eq_true.mp hh
  simp [State.performed, State.inFlight, State.statsNext, State.retires, performedOf, countIf, hr, hh, hw, hop]

theorem State.performed_of_not_taken {s : State} {y : Option MicroOp} (hr : s.runState = .running)
    (h : s.ifId = none ∨ s.idRun y = false) : (s.cycleNext y).performed = s.performed := by
  cases hh : s.halting with
  | true => exact State.performed_of_halting hr hh
  | false =>
    have hfl : (s.cycleNext y).inFlight = s.behindWb := by
      cases hw : s.memWait with
      | true => exact State.inFlight_of_wait hw
      | false => rw [State.inFlight_of_run hw, State.idExNext_of_not_taken hw h]; simp
    rw [State.performed_of_not_halting hr hh (y := y), State.performed, hfl, if_pos (State.cycleNext_running y hr hh)]

/-- Taking an instruction performs one more, unless a `halt` is past Decode already. -/
theorem State.performed_of_taken {s : State} {f : IfId} {m : MicroOp} (hr : s.runState = .running)
    (hf : s.ifId = some f) (hrun : s.idRun (some m) = true) :
    (s.cycleNext (some m)).performed = if s.arch.pc = none then s.performed else s.performed + 1 := by
  cases hh : s.halting with
  | true => rw [State.performed_of_halting hr hh, State.arch_of_halting hr hh, if_pos rfl]
  | false =>
    have hw := (State.idRun_eq_true.mp hrun).1
    have hid : s.idExNext (some m) = some { m with instr := f.instr, pc := f.pc } :=
      State.idExNext_eq_some.mpr (.inr ⟨hrun, f, m, hf, rfl, rfl⟩)
    have hend : s.arch.pc = none ↔ .halt ∈ s.behindWb := by
      rw [State.arch_pc_eq_none hr, State.inFlight, List.mem_append, or_iff_right]
      cases hm : s.memWb with
      | none => simp
      | some w =>
        have hop : w.op ≠ .halt := by simpa [State.halting, hm] using hh
        simpa using hop.symm
    rw [State.performed_of_not_halting hr hh (y := some m), State.performed, if_pos (State.cycleNext_running _ hr hh),
      State.inFlight_of_run hw, hid, Option.map_some, Option.toList_some, performedOf_append]
    simp only [hend]
    split <;> rfl

/-! ### The simulation of the sequential machine -/

/-- In a step in which Decode is not held off, it takes an instruction: a malformed word would have faulted. -/
theorem State.taken_of_step {s t : State} (h : step s = .next t) (hr : s.runState = .running)
    (hrun : ¬ (s.ifId = none ∨ s.idRun s.inDecode = false)) :
    ∃ f m, s.ifId = some f ∧ s.inDecode = some m ∧ s.idRun (some m) = true := by
  rw [not_or, ← ne_eq, Option.ne_none_iff_exists', Bool.not_eq_false] at hrun
  obtain ⟨⟨f, hf⟩, hrun⟩ := hrun
  cases hy : s.inDecode with
  | some m => exact ⟨f, m, hf, rfl, hy ▸ hrun⟩
  | none =>
    have hbad := State.malformedInDecode_eq_some.mpr ⟨(State.idRun_eq_true.mp hrun).1, hy, hf⟩
    obtain ⟨-, hgood, -⟩ | ⟨hn, -⟩ := step_next_cases h
    · simp [hbad] at hgood
    · exact absurd hr hn

/-- A step performs nothing of the sequential machine, or its next instruction. -/
theorem State.Inv.step_performs {s t : State} (hi : s.Inv) (h : step s = .next t) :
    (t.performed = s.performed ∧ t.arch = s.arch) ∨
      (t.performed = s.performed + 1 ∧ s.arch.next s.imem = some t.arch) := by
  obtain ⟨htaken, hnot⟩ := stepRefinesSequential s t hi h
  by_cases hr : s.runState = .running
  · obtain rfl := step_next_of_running hr h
    by_cases hstay : s.ifId = none ∨ s.idRun s.inDecode = false
    · exact .inl ⟨State.performed_of_not_taken hr hstay, hnot (.inr hstay)⟩
    · obtain ⟨f, m, hf, hy, hrun⟩ := State.taken_of_step h hr hstay
      obtain ⟨i, hd, -⟩ := microOpOfWord_eq_some.mp ((State.inDecode_of_ifId hf).symm.trans hy)
      obtain ⟨heff, hnext⟩ := htaken f i hr hf hd (hy ▸ hrun)
      have hperf := State.performed_of_taken hr hf hrun
      rw [← hy] at hperf
      cases hp : s.arch.pc with
      | none =>
        rw [if_pos hp] at hperf
        exact .inl ⟨hperf, heff.trans (Arch.effect_of_ended i hp)⟩
      | some p =>
        rw [if_neg (by simp [hp])] at hperf
        exact .inr ⟨hperf, (hnext p hp).2⟩
  · obtain ⟨hn, -⟩ | ⟨-, rfl⟩ := step_next_cases h
    · exact absurd hn hr
    · exact .inl ⟨rfl, rfl⟩

/-- Once a `halt` has been performed, no step changes the architectural state (R153). -/
theorem State.Inv.arch_of_ended {s t : State} (hi : s.Inv) (h : step s = .next t) (hend : s.arch.pc = none) :
    t.arch = s.arch := by
  obtain ⟨-, harch⟩ | ⟨-, hnext⟩ := hi.step_performs h
  · exact harch
  · simp [Arch.next, hend] at hnext

/-- Settles O37: every cycle hands the instruction store on. -/
theorem instructionStoreConstant : Obligations.InstructionStoreConstant := by
  unfold Obligations.InstructionStoreConstant
  intro s t h
  obtain ⟨-, -, rfl⟩ | ⟨-, rfl⟩ := step_next_cases h
  · exact State.cycleNext_imem _ _
  · rfl

/-- `s` is a state of the launch's run: the invariant holds, and `State.arch` is what the sequential machine has made of
the launch in `State.performed` instructions. -/
structure State.Simulates (l : Launch) (s : State) : Prop where
  inv : s.Inv
  imem : s.imem = l.imem
  run : Arch.run l.imem s.performed l.arch = some s.arch

theorem State.Simulates.step {l : Launch} {s t : State} (hs : s.Simulates l) (h : step s = .next t) :
    t.Simulates l where
  inv := invariantKept s t hs.inv h
  imem := (instructionStoreConstant s t h).trans hs.imem
  run := by
    obtain ⟨hperf, harch⟩ | ⟨hperf, hnext⟩ := hs.inv.step_performs h
    · rw [hperf, harch]
      exact hs.run
    · rw [hperf]
      exact Arch.run_succ_of_run hs.run (hs.imem ▸ hnext)

theorem State.Simulates.runFor {l : Launch} {s t : State} {k : Nat} (hs : s.Simulates l)
    (h : Machine.runFor k s = .next t) : t.Simulates l :=
  runFor_induction (P := State.Simulates l) (fun _ _ hs hstep => hs.step hstep) hs h

theorem Launch.simulates_of_start {l : Launch} {s : State} (h : l.start = some s) : s.Simulates l := by
  refine ⟨Launch.inv_of_start h, ?_, ?_⟩ <;> obtain ⟨-, rfl⟩ := Launch.start_eq_some.mp h <;> rfl

/-- A halted state of a launch's run is the end of the sequential machine. -/
theorem State.Simulates.haltsAfter {l : Launch} {s : State} (hs : s.Simulates l) (hh : s.runState = .halted) :
    Arch.haltsAfter l.imem s.stats.instructionsRetired l.arch ⟨none, s.x, s.dmem⟩ := by
  have hrun := hs.run
  rw [State.arch_of_stopped (by simp [hh]), State.performed, if_neg (by simp [hh])] at hrun
  exact ⟨hrun, rfl⟩

/-- Settles O53: the halted state is the end of the sequential machine, by the simulation along the run. -/
theorem haltedRunIsSequential : Obligations.HaltedRunIsSequential := by
  unfold Obligations.HaltedRunIsSequential
  intro l s t k hl h hh
  exact ⟨_, _, ((Launch.simulates_of_start hl).runFor h).haltsAfter hh, rfl, rfl, rfl⟩

/-- Settles O55: both runs end where the one sequential machine of the two launches ends. -/
theorem latencyNeverChangesResult : Obligations.LatencyNeverChangesResult := by
  unfold Obligations.LatencyNeverChangesResult
  intro l l' s s' t t' k k' himem hdmem hrf hpc hl hl' h h' hh hh'
  have hend := ((Launch.simulates_of_start hl).runFor h).haltsAfter hh
  have hend' := ((Launch.simulates_of_start hl').runFor h').haltsAfter hh'
  have harch : l.arch = l'.arch := by rw [Launch.arch, Launch.arch, hpc, hrf, hdmem]
  rw [himem, harch] at hend
  obtain ⟨hn, hb⟩ := Arch.haltsAfter_unique hend hend'
  obtain ⟨-, hx, hd⟩ := Arch.mk.inj hb
  exact ⟨hx, hd, hn⟩

/-- Settles O52: an ended architectural view is handed on by every step, and a halted machine's is its own. -/
theorem nothingAfterHaltHasEffect : Obligations.NothingAfterHaltHasEffect := by
  unfold Obligations.NothingAfterHaltHasEffect
  intro s t k hi hend h hh
  obtain ⟨-, harch⟩ := runFor_induction (P := fun u => u.Inv ∧ u.arch = s.arch)
    (fun u v ⟨hu, ha⟩ hstep => ⟨invariantKept u v hu hstep, (hu.arch_of_ended hstep (ha ▸ hend)).trans ha⟩) ⟨hi, rfl⟩ h
  rw [← harch, State.arch_of_stopped (by simp [hh])]
  exact ⟨rfl, rfl⟩

/-- Settles O50: with nothing in flight nothing is completed, and a halted machine's view is its own state. -/
theorem archOfDrainedMachine : Obligations.ArchOfDrainedMachine := by
  unfold Obligations.ArchOfDrainedMachine
  refine fun s => ⟨fun hr hd => ?_, fun hh => State.arch_of_stopped (by simp [hh])⟩
  simp only [State.drained, Bool.and_eq_true, Option.isNone_iff_eq_none] at hd
  obtain ⟨⟨⟨hf, hx⟩, he⟩, hw⟩ := hd
  rw [State.arch_of_running hr, State.archAtExecute, State.nextAddr, hf, hx, he, hw]
  rfl

/-! ### Progress -/

/-- At most so many cycles pass before Decode takes the next instruction of the sequential machine: the wait cycles now,
those of a memory operation in ID_EX, and the fetch. -/
def State.untilTaken (s : State) : Nat :=
  s.memCyclesLeft + (if s.idEx.isSome then 4 else 0) + (if s.ifId.isNone then 4 else 0)

/-- At most so many cycles pass before the one in which a `halt` past Decode retires. -/
def State.untilRetired (s : State) : Nat :=
  if s.halting then 0 else if s.exMem.map ExMem.op = some .halt then 1 else 2 + s.memCyclesLeft

/-- No run from this state faults. -/
def State.NeverFaults (s : State) : Prop := ∀ k r, runFor k s ≠ .fault r

theorem State.NeverFaults.step {s : State} (h : s.NeverFaults) : ∃ t, step s = .next t ∧ t.NeverFaults := by
  cases hs : Machine.step s with
  | next t => exact ⟨t, rfl, fun k r hk => h (k + 1) r (by rw [runFor_succ, hs]; exact hk)⟩
  | fault r => exact absurd (by rw [runFor_succ, hs]) (h 1 r)
  | refused r => exact absurd hs (step_not_refused s r)

theorem State.Inv.not_memWait_of_halt {s : State} (hi : s.Inv) {e : ExMem} (he : s.exMem = some e)
    (hop : e.op = .halt) : s.memWait = false := by
  have hidle : s.memCyclesLeft = 0 := hi.counterIdle fun e' he' => by
    obtain rfl : e = e' := Option.some.inj (he.symm.trans he')
    simp [ExMem.isMemOp, hi.ctrl_exMem he, hop, controlOf]
  simp [State.memWait, hidle]

/-- A `halt` past Decode moves on with every cycle but the wait cycles of an older memory operation. -/
theorem State.Inv.untilRetired_lt {s : State} (hi : s.Inv) (hhalt : .halt ∈ s.inFlight) (hh : s.halting = false)
    (y : Option MicroOp) : (s.cycleNext y).untilRetired < s.untilRetired := by
  by_cases hex : s.exMem.map ExMem.op = some .halt
  · obtain ⟨e, he, hop⟩ := Option.map_eq_some_iff.mp hex
    have hw := hi.not_memWait_of_halt he hop
    have hh' : (s.cycleNext y).halting = true := by
      simp [State.halting, State.memWbNext, he, hw, ExMem.perform, hop]
    simp [State.untilRetired, hh, hh', hex]
  · have hid : ∃ i, s.idEx = some i ∧ i.op = .halt := by
      simp only [State.inFlight, State.behindWb, List.mem_append, Option.mem_toList] at hhalt
      obtain hm | hm | hm := hhalt
      · obtain ⟨w, hw, hop⟩ := Option.map_eq_some_iff.mp hm
        simp [State.halting, hw, hop] at hh
      · exact absurd hm hex
      · simpa using hm
    obtain ⟨i, hx, hop⟩ := hid
    cases hw : s.memWait with
    | true =>
      obtain ⟨e, he, hpos⟩ := State.memWait_eq_true.mp hw
      obtain ⟨hex', -, -, -, -, -, hleft, -⟩ := State.wait_holds (y := y) hw
      simp only [State.untilRetired, hh, State.cycleNext_exMem, State.cycleNext_memCyclesLeft, hex', hex, hleft,
        if_false, Bool.false_eq_true]
      split <;> omega
    | false =>
      have hex' : (s.cycleNext y).exMem.map ExMem.op = some .halt := by
        simp [State.exMemNext_of_execute hw hx, IdEx.execute, hop]
      simp only [State.untilRetired, hh, hex, hex', if_true, if_false, Bool.false_eq_true]
      split <;> omega

/-- Where a `halt` is past Decode and no cycle faults, the run halts. -/
theorem State.Inv.reaches_halted {s : State} (hi : s.Inv) (hnf : s.NeverFaults) (hend : s.arch.pc = none) :
    ∃ k t, runFor k s = .next t ∧ t.runState = .halted := by
  induction hn : s.untilRetired using Nat.strong_induction_on generalizing s with
  | _ n ih =>
    obtain ⟨t, hstep, hnf'⟩ := hnf.step
    by_cases hr : s.runState = .running
    · obtain rfl := step_next_of_running hr hstep
      cases hh : s.halting with
      | true => exact ⟨1, _, by rw [runFor_succ, hstep]; rfl, by simp [hh]⟩
      | false =>
        have hi' := invariantKept s _ hi hstep
        have hend' : (s.cycleNext s.inDecode).arch.pc = none := (hi.arch_of_ended hstep hend).symm ▸ hend
        have hlt := hi.untilRetired_lt ((State.arch_pc_eq_none hr).mp hend) hh s.inDecode
        obtain ⟨k, u, hk, hu⟩ := ih _ (hn ▸ hlt) hi' hnf' hend' rfl
        exact ⟨k + 1, u, by rw [runFor_succ, hstep]; exact hk, hu⟩
    · refine ⟨0, s, rfl, ?_⟩
      have := hi.notFaulted
      cases h : s.runState <;> simp_all

/-- While the sequential machine goes on, its next address is the fetch address of a cycle without wait that has nothing
in IF_ID. -/
theorem State.Inv.pc_eq_fetchAddr {s : State} (hi : s.Inv) (hr : s.runState = .running) (hw : s.memWait = false)
    (hf : s.ifId = none) {p : Word} (hp : s.arch.pc = some p) : s.fetchAddr = p := by
  have hh : s.halting = false := Bool.eq_false_iff.mpr fun hh => by simp [State.arch_of_halting hr hh] at hp
  have hnext : s.nextAddr = s.pc := by simp [State.nextAddr, hf]
  rw [hi.arch_eq_behindExecute hr hh hw, hnext] at hp
  obtain ⟨x, d, ha | ha⟩ := s.archBehindExecute_endedOrNext
  · simp [ha] at hp
  · rw [ha] at hp
    exact Option.some.inj hp

/-- A cycle in which Decode takes nothing brings the next instruction of the sequential machine nearer to Decode. -/
theorem State.Inv.untilTaken_lt {s : State} (hi : s.Inv) (hr : s.runState = .running) {p w : Word}
    (hp : s.arch.pc = some p) (hfetch : s.imem.fetch p = some w) {y : Option MicroOp}
    (h : s.ifId = none ∨ s.idRun y = false) : (s.cycleNext y).untilTaken < s.untilTaken := by
  unfold State.untilTaken
  rw [State.cycleNext_memCyclesLeft, State.cycleNext_idEx, State.cycleNext_ifId]
  have hle := hi.memCyclesLeftNext_le
  cases hw : s.memWait with
  | true =>
    obtain ⟨e, -, hpos⟩ := State.memWait_eq_true.mp hw
    obtain ⟨-, hid, hif, -, -, -, hleft, -⟩ := State.wait_holds (y := y) hw
    rw [hid, hif, hleft]
    omega
  | false =>
    rw [State.idExNext_of_not_taken hw h]
    by_cases hf : s.ifId = none
    · have hrun : s.ifRun y = true := by simp [State.ifRun, State.idRun, State.branchStall, State.loadUse, hw, hf]
      obtain ⟨hpresent, -⟩ := State.fetches_of_ifRun hrun (hi.pc_eq_fetchAddr hr hw hf hp)
      rw [(hpresent w hfetch).1, hf]
      simp only [Option.isSome_none, Option.isNone_some, Option.isNone_none, Bool.false_eq_true, if_false, if_true]
      omega
    · have hl := State.loadUse_of_not_idRun hw (h.resolve_left hf)
      obtain ⟨-, i, f, m, hx, hf', -⟩ := State.loadUse_eq_true.mp hl
      rw [(State.loadUse_holds hl).2.1, hx, hf']
      simp only [Option.isSome_none, Option.isSome_some, Option.isNone_some, Bool.false_eq_true, if_false, if_true]
      omega

theorem State.Inv.untilTaken_le {s : State} (hi : s.Inv) : s.untilTaken ≤ 11 := by
  have := hi.counterBound
  unfold State.untilTaken
  repeat' split
  all_goals omega

/-- A step performs an instruction of the sequential machine, or brings the next one nearer to Decode. -/
theorem State.Inv.step_progresses {s t : State} (hi : s.Inv) (h : step s = .next t) {p w : Word}
    (hp : s.arch.pc = some p) (hfetch : s.imem.fetch p = some w) :
    t.performed = s.performed + 1 ∨ (t.performed = s.performed ∧ t.untilTaken < s.untilTaken) := by
  have hr : s.runState = .running := by
    by_contra hr
    simp [State.arch_of_stopped hr] at hp
  obtain rfl := step_next_of_running hr h
  by_cases hstay : s.ifId = none ∨ s.idRun s.inDecode = false
  · exact .inr ⟨State.performed_of_not_taken hr hstay, hi.untilTaken_lt hr hp hfetch hstay⟩
  · obtain ⟨f, m, hf, hy, hrun⟩ := State.taken_of_step h hr hstay
    rw [hy, State.performed_of_taken hr hf hrun, if_neg (by simp [hp])]
    exact .inl rfl

/-- A state of the run that has not performed the final `halt` yet has performed fewer instructions, and its next one is
present. -/
theorem State.Simulates.present {l : Launch} {s : State} (hs : s.Simulates l) {n : Nat} {b : Arch}
    (hb : Arch.haltsAfter l.imem n l.arch b) {p : Word} (hp : s.arch.pc = some p) :
    s.performed ≤ n ∧ ∃ w, s.imem.fetch p = some w := by
  obtain ⟨hrun, hend⟩ := hb
  have hle := Arch.run_le_of_ended hrun hend hs.run
  obtain ⟨k, hk⟩ : ∃ k, n + 1 = s.performed + k := ⟨n + 1 - s.performed, by omega⟩
  rw [hk, Arch.run_add _ hs.run] at hrun
  cases k with
  | zero =>
    obtain rfl : s.arch = b := Option.some.inj hrun
    simp [hp] at hend
  | succ k =>
    refine ⟨by omega, ?_⟩
    rw [hs.imem]
    cases hw : l.imem.fetch p with
    | some w => exact ⟨w, rfl⟩
    | none => simp [Arch.run, Arch.next, hp, hw] at hrun

/-- A run that never faults, on a program whose sequential machine halts, performs the `halt`. -/
theorem State.Simulates.reaches_ended {l : Launch} {s : State} (hs : s.Simulates l) (hnf : s.NeverFaults) {n : Nat}
    {b : Arch} (hb : Arch.haltsAfter l.imem n l.arch b) :
    ∃ k t, Machine.runFor k s = .next t ∧ t.Simulates l ∧ t.NeverFaults ∧ t.arch.pc = none := by
  induction hm : 12 * (n + 1 - s.performed) + s.untilTaken using Nat.strong_induction_on generalizing s with
  | _ m ih =>
    cases hp : s.arch.pc with
    | none => exact ⟨0, s, rfl, hs, hnf, hp⟩
    | some p =>
      obtain ⟨hle, w, hw⟩ := hs.present hb hp
      obtain ⟨t, hstep, hnf'⟩ := hnf.step
      have hlt : 12 * (n + 1 - t.performed) + t.untilTaken < m := by
        have htaken := (hs.step hstep).inv.untilTaken_le
        obtain hperf | ⟨hperf, hnear⟩ := hs.inv.step_progresses hstep hp hw
        · omega
        · omega
      obtain ⟨k, u, hk, hu⟩ := ih _ hlt (hs.step hstep) hnf' rfl
      exact ⟨k + 1, u, by rw [runFor_succ, hstep]; exact hk, hu⟩

/-- Settles O54: the run performs the sequential machine's `halt`, then retires it, and the sequential machine has one
end. -/
theorem pipelineReachesSequentialHalt : Obligations.PipelineReachesSequentialHalt := by
  unfold Obligations.PipelineReachesSequentialHalt
  intro l s n b hl hb hnf
  have hs := Launch.simulates_of_start hl
  obtain ⟨k, u, hk, hu, hnf', hend⟩ := hs.reaches_ended hnf hb
  obtain ⟨k', t, hk', hh⟩ := hu.inv.reaches_halted hnf' hend
  have hrun : runFor (k + k') s = .next t := (runFor_add k' hk).trans hk'
  obtain ⟨hn, rfl⟩ := Arch.haltsAfter_unique ((hs.runFor hrun).haltsAfter hh) hb
  exact ⟨k + k', t, hrun, hh, rfl, rfl, hn⟩

end Sys2Proof.Machine

/-! PROOFS. What each instruction does from its Decode cycle on: it completes with its own effect, and until Decode
takes it, it has none (41_arithmetic.md to 44_halt.md). -/

namespace Sys2Proof.Machine

/-! ### MicroOps of well-formed instructions -/

/-- R72: an instruction has a MicroOp exactly when it is well-formed. -/
theorem wellFormed_iff_microOp (i : Instr) : i.wellFormed = true ↔ ∃ m, microOp i = some m := by
  suffices h : Laws.MicroOpOfWellFormed.Statement i from h.1
  cases i with
  | add rd rs rt => exact Laws.MicroOpOfWellFormed.add rd rs rt
  | sub rd rs rt => exact Laws.MicroOpOfWellFormed.sub rd rs rt
  | addi rt rs imm => exact Laws.MicroOpOfWellFormed.addi rt rs imm
  | subi rt rs imm => exact Laws.MicroOpOfWellFormed.subi rt rs imm
  | lw rt imm rs => exact Laws.MicroOpOfWellFormed.lw rt imm rs
  | sw rt imm rs => exact Laws.MicroOpOfWellFormed.sw rt imm rs
  | beq rs rt imm => exact Laws.MicroOpOfWellFormed.beq rs rt imm
  | j imm => exact Laws.MicroOpOfWellFormed.j imm
  | halt => exact Laws.MicroOpOfWellFormed.halt

theorem formR_of_regs (op : Op) (rd rs rt : Reg) :
    formR op rd rs rt = some ⟨op, some rs, some rt, some rd, none, controlOf op⟩ :=
  formR_eq_some.mpr ⟨rd, rs, rt, rfl, rfl, rfl, rfl⟩

theorem formI_of_regs (op : Op) (rs rt : Reg) {imm : Int} (h : imm16Ok imm = true) :
    formI op rs rt imm = some ⟨op, some rs, some rt, none, some (BitVec.ofInt 32 imm), controlOf op⟩ :=
  formI_eq_some.mpr ⟨rs, rt, rfl, rfl, h, rfl⟩

theorem formJ_of_idx {imm : Int} (h : idx26Ok imm = true) :
    formJ imm = some ⟨.j, none, none, none, some (BitVec.ofInt 32 imm), controlOf .j⟩ :=
  formJ_eq_some.mpr ⟨h, rfl⟩

/-! ### Registers of the sequential machine -/

@[simp] theorem Arch.reg_val (a : Arch) (r : Reg) : a.reg r.val = a.x.read r := by simp [Arch.reg]

theorem Arch.read_setReg (a : Arch) (d r : Reg) (v : Word) :
    (a.setReg d.val v).read r = if r = d ∧ d ≠ 0 then v else a.x.read r := by
  simp [Arch.setReg, RegFile.read_write]

/-! ### The cycle in which Decode takes an instruction -/

section Decoding
variable {i : Instr} {a : Word} {s : State} {m : MicroOp} (h : s.decoding i a) (hm : microOp i = some m)
include h hm

/-- The instruction moves into ID_EX, and the architectural state after the cycle is its sequential effect. -/
theorem State.decoding.completes :
    exec i s = .next (s.cycleNext (some m)) ∧
      (s.cycleNext (some m)).idEx = some { m with instr := encode i, pc := a } ∧
      (s.Inv → s.arch.pc = some a → (s.cycleNext (some m)).arch = s.arch.effectAt a i) := by
  obtain ⟨hr, hf, hrun⟩ := h
  rw [hm] at hrun
  refine ⟨?_, State.idExNext_eq_some.mpr (.inr ⟨hrun, _, m, hf, rfl, rfl⟩), fun hi ha => ?_⟩
  · rw [exec_eq_cycle, hm]
    exact cycle_of_running hr (State.malformedInDecode_some s m)
  · rw [(hi.arch_cycleNext_of_taken hr hf hm hrun).1, Arch.effect_of_pc i ha]

/-- Decode of a `beq` or a `j` is a branch stall: nothing is fetched, and `pc` stays the address after it (R206). -/
theorem State.decoding.branch_stall (ht : m.ctrl.branch = true ∨ m.ctrl.jump = true) :
    (s.cycleNext (some m)).ifId = none ∧
      (s.cycleNext (some m)).stats.stallCycles = s.stats.stallCycles + 1 ∧
      (s.cycleNext (some m)).stats.loadStalls = s.stats.loadStalls ∧
      (s.Inv → (s.cycleNext (some m)).pc = a + 4) := by
  obtain ⟨-, hf, hrun⟩ := h
  rw [hm] at hrun
  have hb : s.branchStall (some m) = true := State.branchStall_eq_true.mpr ⟨hrun, _, m, hf, rfl, ht⟩
  have hif : s.ifRun (some m) = false := by simp [State.ifRun, hb]
  refine ⟨by simp [State.ifIdNext, hif, hb], by simp [State.statsNext, countIf, hb],
    by simp [State.statsNext, countIf, (State.idRun_eq_true.mp hrun).2], fun hi => ?_⟩
  rw [State.cycleNext_pc, State.pcNext_of_not_ifRun hif, hi.fetchAddr_of_ifId hf, (hi.ifIdFetched _ hf).2]

end Decoding

/-- Settles O5: the sequential effect of `add` on the architectural state. -/
theorem addCompletes : Obligations.AddCompletes := by
  unfold Obligations.AddCompletes
  intro rd rs rt a s h
  have hm : microOp (.add rd rs rt) = some _ := formR_of_regs .add rd rs rt
  obtain ⟨hexec, hid, harch⟩ := h.completes hm
  refine ⟨_, hexec, hid, fun hi ha => ?_⟩
  rw [harch hi ha]
  exact ⟨rfl, rfl, fun r => by simp [Arch.effectAt, Arch.read_setReg]⟩

/-- Settles O6: the sequential effect of `sub` on the architectural state. -/
theorem subCompletes : Obligations.SubCompletes := by
  unfold Obligations.SubCompletes
  intro rd rs rt a s h
  have hm : microOp (.sub rd rs rt) = some _ := formR_of_regs .sub rd rs rt
  obtain ⟨hexec, hid, harch⟩ := h.completes hm
  refine ⟨_, hexec, hid, fun hi ha => ?_⟩
  rw [harch hi ha]
  exact ⟨rfl, rfl, fun r => by simp [Arch.effectAt, Arch.read_setReg]⟩

/-- Settles O7: the sequential effect of `addi` on the architectural state. -/
theorem addiCompletes : Obligations.AddiCompletes := by
  unfold Obligations.AddiCompletes
  intro rt rs imm a s himm h
  have hm : microOp (.addi rt rs imm) = some _ := formI_of_regs .addi rs rt himm
  obtain ⟨hexec, hid, harch⟩ := h.completes hm
  refine ⟨_, hexec, hid, fun hi ha => ?_⟩
  rw [harch hi ha]
  exact ⟨rfl, rfl, fun r => by simp [Arch.effectAt, Arch.read_setReg]⟩

/-- Settles O8: the sequential effect of `subi` on the architectural state. -/
theorem subiCompletes : Obligations.SubiCompletes := by
  unfold Obligations.SubiCompletes
  intro rt rs imm a s himm h
  have hm : microOp (.subi rt rs imm) = some _ := formI_of_regs .subi rs rt himm
  obtain ⟨hexec, hid, harch⟩ := h.completes hm
  refine ⟨_, hexec, hid, fun hi ha => ?_⟩
  rw [harch hi ha]
  exact ⟨rfl, rfl, fun r => by simp [Arch.effectAt, Arch.read_setReg]⟩

/-- Settles O9: the sequential effect of `lw` on the architectural state. -/
theorem lwCompletes : Obligations.LwCompletes := by
  unfold Obligations.LwCompletes
  intro rt rs imm a s himm h
  have hm : microOp (.lw rt imm rs) = some _ := formI_of_regs .lw rs rt himm
  obtain ⟨hexec, hid, harch⟩ := h.completes hm
  refine ⟨_, hexec, hid, fun hi ha => ?_⟩
  rw [harch hi ha]
  exact ⟨rfl, rfl, fun r => by simp [Arch.effectAt, Arch.address, Arch.read_setReg]⟩

/-- Settles O10: the sequential effect of `sw` on the architectural state, by the read-after-write law of the store. -/
theorem swCompletes : Obligations.SwCompletes := by
  unfold Obligations.SwCompletes
  intro rt rs imm a s himm h
  have hm : microOp (.sw rt imm rs) = some _ := formI_of_regs .sw rs rt himm
  obtain ⟨hexec, hid, harch⟩ := h.completes hm
  refine ⟨_, hexec, hid, fun hi ha => ?_⟩
  rw [harch hi ha]
  exact ⟨rfl, fun r => rfl, fun b => by simp [Arch.effectAt, Arch.address, Memory.read_write]⟩

/-- Settles O11: a branch stall, and the sequential effect of `beq` on the architectural state. -/
theorem beqCompletes : Obligations.BeqCompletes := by
  unfold Obligations.BeqCompletes
  intro rs rt imm a s himm h
  have hm : microOp (.beq rs rt imm) = some _ := formI_of_regs .beq rs rt himm
  obtain ⟨hif, hstall, hload, hpc⟩ := h.branch_stall hm (.inl rfl)
  obtain ⟨hexec, hid, harch⟩ := h.completes hm
  refine ⟨_, hexec, hid, hif, hstall, hload, hpc, fun hi ha => ?_⟩
  rw [harch hi ha]
  exact ⟨rfl, rfl, by simp [Arch.effectAt]⟩

/-- Settles O12: a branch stall, and the sequential effect of `j` on the architectural state. -/
theorem jCompletes : Obligations.JCompletes := by
  unfold Obligations.JCompletes
  intro imm a s himm h
  have hm : microOp (.j imm) = some _ := formJ_of_idx himm
  obtain ⟨hif, hstall, hload, hpc⟩ := h.branch_stall hm (.inr rfl)
  obtain ⟨hexec, hid, harch⟩ := h.completes hm
  refine ⟨_, hexec, hid, hif, hstall, hload, hpc, fun hi ha => ?_⟩
  rw [harch hi ha]
  exact ⟨rfl, rfl, rfl⟩

/-- Settles O13: no stall is raised, and the sequential effect of `halt` on the architectural state. -/
theorem haltCompletes : Obligations.HaltCompletes := by
  unfold Obligations.HaltCompletes
  intro a s h
  have hm : microOp .halt = some _ := rfl
  obtain ⟨hexec, hid, harch⟩ := h.completes hm
  refine ⟨_, hexec, hid, ?_, fun hi ha => ?_⟩
  · have hl := (State.idRun_eq_true.mp h.2.2).2
    rw [hm] at hl
    have hb : s.branchStall (some ⟨.halt, none, none, none, none, controlOf .halt⟩) = false := by
      simp [State.branchStall, controlOf]
    simp [State.statsNext, countIf, hl, hb]
  · rw [harch hi ha]
    exact ⟨rfl, rfl, rfl⟩

/-! ### An instruction that Decode does not take -/

/-- What a word encoded from a well-formed instruction puts into Decode. -/
theorem State.inDecode_of_encode {s : State} {i : Instr} {a : Word} (hwf : i.wellFormed = true)
    (hf : s.ifId = some { instr := encode i, pc := a }) : s.inDecode = microOp i := by
  simp [State.inDecode, microOpOfWord, hf, decodeWord_encode hwf]

/-- Settles O15: a cycle in which Decode does not run holds the front of the pipeline and the architectural state. -/
theorem heldInstructionHasNoEffect : Obligations.HeldInstructionHasNoEffect := by
  unfold Obligations.HeldInstructionHasNoEffect
  intro i a s hwf hi hr hf hheld
  obtain ⟨m, hm⟩ := (wellFormed_iff_microOp i).mp hwf
  obtain ⟨hif, hpc⟩ := hi.front_held hheld
  refine ⟨s.cycleNext (microOp i), ?_, hif, hpc, hi.arch_cycleNext_of_not_taken hr (.inr hheld)⟩
  rw [exec_eq_cycle]
  exact cycle_of_running hr (hm ▸ State.malformedInDecode_some s m)

/-- Settles O16: an ill-formed instruction has no MicroOp, and Decode faults on none. -/
theorem illFormedRaisesMalformed : Obligations.IllFormedRaisesMalformed := by
  unfold Obligations.IllFormedRaisesMalformed
  intro i f s hwf hr hw hf
  have hm : microOp i = none := by
    rw [Option.eq_none_iff_forall_ne_some]
    intro m hm
    simp [(wellFormed_iff_microOp i).mpr ⟨m, hm⟩] at hwf
  rw [exec_eq_cycle, cycle_fault_iff]
  exact ⟨hr, f, State.malformedInDecode_eq_some.mpr ⟨hw, hm, hf⟩, rfl⟩

/-- Settles O17: a well-formed instruction has a MicroOp, on which Decode raises nothing; a stopped machine stays. -/
theorem wellFormedNeverStops : Obligations.WellFormedNeverStops := by
  unfold Obligations.WellFormedNeverStops
  intro i s hwf
  obtain ⟨m, hm⟩ := (wellFormed_iff_microOp i).mp hwf
  rw [exec_eq_cycle, hm]
  by_cases hr : s.runState = .running
  · exact ⟨_, cycle_of_running hr (State.malformedInDecode_some s m)⟩
  · exact ⟨s, cycle_of_not_running hr⟩

/-- A cell after a performed instruction: a store's cell holds its value (R55, R182). -/
theorem ExMem.read_storeTo (e : ExMem) (d : Memory) (b : Word) :
    (e.storeTo d).read b = if e.ctrl.memWrite = true ∧ b = e.aluResult then e.storeValue else d.read b := by
  unfold ExMem.storeTo
  cases e.ctrl.memWrite <;> simp [Memory.read_write]

theorem State.dmemNext_of_empty {s : State} (h : s.exMem = none) : s.dmemNext = s.dmem := by
  simp [State.dmemNext, h]

/-- The data store after a perform cycle. -/
theorem State.dmemNext_of_perform {s : State} {e : ExMem} (h : s.exMem = some e) (hw : s.memWait = false) :
    s.dmemNext = e.storeTo s.dmem := by
  simp [State.dmemNext, h, hw]

theorem State.memWait_of_exMem {s : State} {e : ExMem} (h : s.exMem = some e) :
    s.memWait = false ↔ s.memCyclesLeft = 0 := by
  simp [State.memWait, h]

/-- Execute draws a latency exactly where it runs on an `lw` or an `sw` (R176). -/
theorem State.draws_eq_true {s : State} : s.draws = true ↔
    s.memWait = false ∧ ∃ i, s.idEx = some i ∧ (i.ctrl.memRead = true ∨ i.ctrl.memWrite = true) := by
  unfold State.draws
  cases s.idEx <;> simp

/-- Settles O14: the fields of the cycle's next state, each unchanged but for Writeback, Memory and a draw. -/
theorem execFrame : Obligations.ExecFrame := by
  unfold Obligations.ExecFrame
  intro i s t h
  rw [exec_eq_cycle] at h
  obtain ⟨hr, -, rfl⟩ | ⟨-, rfl⟩ := cycle_next_cases h
  · refine ⟨rfl, fun r hno => ?_, fun b hno => ?_, fun hno => ?_⟩
    · rw [State.cycleNext_x]
      cases hw : s.memWb with
      | none => rw [State.regsAfterWb_none hw]
      | some w =>
        rw [State.regsAfterWb_some hw, MemWb.read_writeTo, if_neg]
        rintro ⟨hreg, hd, h0⟩
        exact hno ⟨w, hw, hreg, hd, h0⟩
    · rw [State.cycleNext_dmem]
      cases he : s.exMem with
      | none => rw [State.dmemNext_of_empty he]
      | some e =>
        cases hw : s.memWait with
        | true =>
          obtain ⟨-, -, -, -, -, hsame, -⟩ := State.wait_holds (y := none) hw
          rw [hsame]
        | false =>
          rw [State.dmemNext_of_perform he hw, ExMem.read_storeTo, if_neg]
          rintro ⟨hst, hb⟩
          exact hno ⟨e, he, (State.memWait_of_exMem he).mp hw, hst, hb⟩
    · have hdraws : s.draws = false := Bool.eq_false_iff.mpr fun hd => hno (State.draws_eq_true.mp hd).2
      simp [hdraws, countIf]
  · exact ⟨rfl, fun _ _ => rfl, fun _ _ => rfl, fun _ => ⟨rfl, rfl⟩⟩

/-! ### The step and the decoder -/

/-- Settles O18: the decoder answers well-formed instructions, and the step is `exec` of its answer. -/
theorem stepRunsDecoded : Obligations.StepRunsDecoded := by
  unfold Obligations.StepRunsDecoded
  intro s f i hf hd
  exact ⟨wellFormed_of_decodeWord hd, by simp [step, hf, hd]⟩

/-- A step with IF_ID empty raises nothing. -/
theorem step_of_empty {s : State} (hr : s.runState = .running) (hf : s.ifId = none) :
    step s = .next (s.cycleNext s.inDecode) := by
  rw [step_eq_cycle]
  exact cycle_of_running hr (State.malformedInDecode_of_empty _ hf)

/-- Settles O19: Fetch runs on `pc`, and the next step decodes the fetched word back to the instruction. -/
theorem wordAtPcIsFetchedThenRun : Obligations.WordAtPcIsFetchedThenRun := by
  unfold Obligations.WordAtPcIsFetchedThenRun
  intro i s hwf hr hh hw hf hred hfetch
  have haddr : s.fetchAddr = s.pc := by simp [State.fetchAddr, hred]
  obtain ⟨hpresent, -⟩ := State.fetches_of_ifRun (State.ifRun_of_empty hw hf) haddr
  obtain ⟨hif, hpc⟩ := hpresent _ hfetch
  exact ⟨_, step_of_empty hr hf, hif, hpc, State.cycleNext_running _ hr hh,
    (stepRunsDecoded (s.cycleNext s.inDecode) _ i hif (decodeWord_encode hwf)).2⟩

/-- Settles O21: a malformed word in Decode faults whatever Writeback consumes. -/
theorem faultWinsOverHalt : Obligations.FaultWinsOverHalt := by
  unfold Obligations.FaultWinsOverHalt
  intro s f w hr _ _ hwait hf hbad
  exact (malformedFaultExactly s _).mpr ⟨hr, hwait, f, hf, hbad, rfl⟩

/-- Settles O22: no cycle is taken in a stopped machine. -/
theorem stoppedMachineStays : Obligations.StoppedMachineStays := by
  unfold Obligations.StoppedMachineStays
  exact fun s hr => step_of_stopped hr

end Sys2Proof.Machine

/-! PROOFS. The cycle's remaining stage laws: the load stall, the latency draw, Memory, the end of the run, the
counters, the idle cycle, and the state a launch starts in. -/

namespace Sys2Proof.Machine

/-! ### Execute and the latency draw -/

/-- The counter after a draw (R176). -/
theorem State.memCyclesLeftNext_of_draws {s : State} (h : s.draws = true) : s.memCyclesLeftNext = s.draw.cycles := by
  rw [State.memCyclesLeftNext_of_run (State.draws_eq_true.mp h).1, if_pos h]

/-- Settles O25: the load-use comparator holds, and the load goes on with its draw. -/
theorem loadStallCycle : Obligations.LoadStallCycle := by
  unfold Obligations.LoadStallCycle
  intro s i f m d hr hw hx hc hd hf hm hsrc
  have hy : s.inDecode = some m := (State.inDecode_of_ifId hf).trans hm
  have hload : i.ctrl.memRead = true := by rw [hc]; rfl
  have hl : s.loadUse s.inDecode = true := State.loadUse_eq_true.mpr
    ⟨hw, i, f, m, hx, hf, hy, hload, hsrc.imp (sameReg_eq_true.mpr ⟨d, hd, ·⟩) (sameReg_eq_true.mpr ⟨d, hd, ·⟩)⟩
  have hheld : s.idRun s.inDecode = false := by simp [State.idRun, hl]
  have hred : s.redirect = none := State.redirect_of_no_transfer hx (by simp [IdEx.transfers, hc, controlOf])
  have hdraws : s.draws = true := State.draws_eq_true.mpr ⟨hw, i, hx, .inl hload⟩
  have hgood : s.malformedInDecode s.inDecode = none := by rw [hy]; exact State.malformedInDecode_some s m
  obtain ⟨hid, hif, -⟩ := State.loadUse_holds hl
  refine ⟨_, (step_eq_cycle s).trans (cycle_of_running hr hgood), hid, hif, ?_,
    ⟨_, State.exMemNext_of_execute hw hx, rfl, rfl, rfl, rfl, hd⟩, ?_, ?_, ?_⟩
  · rw [State.cycleNext_pc, State.pcNext_of_not_ifRun (by simp [State.ifRun, hheld]), State.fetchAddr, hred]
    rfl
  · rw [State.cycleNext_memCyclesLeft, State.memCyclesLeftNext_of_draws hdraws]
    exact Latency.cycles_mem _
  · simp [State.statsNext, countIf, hl]
  · simp [State.statsNext, countIf, hl]

/-- Settles O31: the counter and the latency inputs follow the one signal that Execute draws. -/
theorem latencyDrawnOncePerMemoryOp : Obligations.LatencyDrawnOncePerMemoryOp := by
  unfold Obligations.LatencyDrawnOncePerMemoryOp
  intro s t hr hw hstep
  obtain rfl := step_next_of_running hr hstep
  constructor
  · intro hmem
    have hdraws := State.draws_eq_true.mpr ⟨hw, hmem⟩
    rw [State.cycleNext_memCyclesLeft, State.memCyclesLeftNext_of_draws hdraws]
    refine ⟨Latency.cycles_mem _, by simp [countIf, hdraws], by simp [hdraws], fun l rest hl => ?_⟩
    simp [State.draw, hl]
  · intro hmem
    have hdraws : s.draws = false := Bool.eq_false_iff.mpr fun hd => hmem (State.draws_eq_true.mp hd).2
    rw [State.cycleNext_memCyclesLeft, State.memCyclesLeftNext_of_run hw]
    simp [countIf, hdraws]

/-! ### Memory and Writeback -/

/-- Settles O32: an empty EX_MEM is a bubble, and with the counter 0 the cycle is a perform cycle. -/
theorem memoryStagePerforms : Obligations.MemoryStagePerforms := by
  unfold Obligations.MemoryStagePerforms
  intro s t hr hstep
  obtain rfl := step_next_of_running hr hstep
  constructor
  · intro he
    exact ⟨by simp [State.memWbNext, he], State.dmemNext_of_empty he⟩
  · intro e he hleft
    have hw : s.memWait = false := (State.memWait_of_exMem he).mpr hleft
    refine ⟨State.memWbNext_eq_some.mpr ⟨hw, e, he, rfl⟩, fun b => ?_⟩
    rw [State.cycleNext_dmem, State.dmemNext_of_perform he hw, ExMem.read_storeTo]

/-- Settles O34: the run state follows the one signal that Writeback consumes `halt`. -/
theorem runEndsWhenHaltRetires : Obligations.RunEndsWhenHaltRetires := by
  unfold Obligations.RunEndsWhenHaltRetires
  intro s t hr hstep
  obtain rfl := step_next_of_running hr hstep
  rw [← State.halting_eq_true, State.cycleNext_runState, hr]
  exact ⟨fun hh => if_pos hh, fun hh => if_neg hh⟩

/-! ### The counters -/

theorem countIf_eq_add (b : Bool) (n : Nat) : countIf b n = n + if b = true then 1 else 0 := by
  cases b <;> rfl

theorem State.branchTaken_eq_true {s : State} {i : IdEx} (hx : s.idEx = some i) : s.branchTaken = true ↔
    s.memWait = false ∧ i.ctrl.branch = true ∧ s.operandOrZero i.rs = s.operandOrZero i.rt := by
  simp [State.branchTaken, operandsEqual, hx]

/-- Settles O35: each counter adds 1 where its signal is raised, and the signals are those of the events. -/
theorem countersFollowEvents : Obligations.CountersFollowEvents := by
  unfold Obligations.CountersFollowEvents
  intro s t hr hstep
  obtain rfl := step_next_of_running hr hstep
  rw [State.cycleNext_stats]
  refine ⟨rfl, ?_, ?_, countIf_eq_add _ _, ?_, countIf_eq_add _ _⟩
  · refine (countIf_eq_add _ _).trans ?_
    unfold State.retires
    cases s.memWb with
    | none => rfl
    | some w => by_cases hop : w.op = .halt <;> simp [hop]
  · refine (countIf_eq_add _ _).trans ?_
    simp only [Bool.or_eq_true]
  · refine (countIf_eq_add _ _).trans ?_
    cases hx : s.idEx with
    | none => simp [State.branchTaken, hx]
    | some i => simp only [State.branchTaken_eq_true hx]

/-- Settles O38: with all four pipeline registers empty and no word at `pc`, every stage passes a bubble. -/
theorem runOffProgramOnlyCountsCycles : Obligations.RunOffProgramOnlyCountsCycles := by
  unfold Obligations.RunOffProgramOnlyCountsCycles
  intro s hr hd hfetch
  simp only [State.drained, Bool.and_eq_true, Option.isNone_iff_eq_none] at hd
  obtain ⟨⟨⟨hf, hx⟩, he⟩, hm⟩ := hd
  have hw : s.memWait = false := by simp [State.memWait, he]
  have hred : s.redirect = none := by simp [State.redirect, hx]
  have hy : s.inDecode = none := by simp [State.inDecode, hf]
  have hfetched : s.fetched = none := by simp [State.fetched, State.fetchAddr, hred, hfetch]
  have hdraws : s.draws = false := by simp [State.draws, hx]
  have hb : s.branchStall none = false := by simp [State.branchStall]
  have hrun : s.ifRun none = true := by simp [State.ifRun, State.idRun, hw, hb]
  have htaken : s.branchTaken = false := by simp [State.branchTaken, hx]
  have hh : s.halting = false := by simp [State.halting, hm]
  rw [step_of_empty hr hf, hy]
  congr 1
  simp [State.cycleNext, State.pcNext, State.ifIdNext, State.idExNext, State.exMemNext, State.memWbNext,
    State.statsNext, State.ctrlStateNext, State.memCyclesLeftNext, State.fetchAddr, State.retires, countIf,
    State.regsAfterWb_none hm, State.dmemNext_of_empty he, hr, hf, hx, he, hm, hw, hred, hfetched, hdraws, hb, hrun,
    htaken, hh]

/-! ### Reset and launch -/

theorem read_replicate_zero (r : Reg) : RegFile.read (Vector.replicate 32 0) r = 0 := by
  simp [RegFile.read, Vector.get_eq_getElem]

/-- Settles O39: the fields of the reset state, the registers and both stores read at every index and address. -/
theorem resetState : Obligations.ResetState := by
  unfold Obligations.ResetState
  exact ⟨rfl, read_replicate_zero, fun _ => rfl, rfl, rfl, rfl, rfl, rfl, rfl, rfl, rfl, fun _ => rfl, rfl⟩

/-- Settles O40: only a launch with register 0 holding 0 starts, in its initial state. -/
theorem launchStartsInResetState : Obligations.LaunchStartsInResetState := by
  unfold Obligations.LaunchStartsInResetState
  intro l
  constructor
  · intro hne
    rw [Option.eq_none_iff_forall_ne_some]
    intro s hs
    obtain ⟨⟨-, hzero, -⟩, -⟩ := Launch.start_eq_some.mp hs
    exact hne hzero
  · intro s hs
    obtain ⟨⟨-, hzero, -⟩, rfl⟩ := Launch.start_eq_some.mp hs
    exact ⟨rfl, hzero, fun _ => rfl, fun _ => rfl, fun _ => rfl, rfl, rfl, rfl, rfl, rfl, rfl, rfl, rfl⟩

end Sys2Proof.Machine

/-! PROOFS. The stages evaluated in place in reverse order answer what the synchronous cycle answers (R160, R161). -/

namespace Sys2Proof.Machine

/-! ### The shared state as the stages leave it, in a cycle without wait -/

/-- The cycle's first action: it is counted. -/
def State.counted (s : State) : State := { s with stats := { s.stats with totalCycles := s.stats.totalCycles + 1 } }

/-- Writeback has run. -/
def State.writtenBack (s : State) : State :=
  { s.counted with
    x := s.regsAfterWb
    stats := { s.counted.stats with instructionsRetired := countIf s.retires s.stats.instructionsRetired } }

/-- Writeback and Memory have run. -/
def State.performedMemory (s : State) : State := { s.writtenBack with memWb := s.memWbNext, dmem := s.dmemNext }

/-- Writeback, Memory and Execute have run. -/
def State.executed (s : State) : State :=
  { s.performedMemory with
    pc := s.fetchAddr
    exMem := s.exMemNext
    memCyclesLeft := s.memCyclesLeftNext
    latencyInputs := if s.draws then s.latencyInputs.tail else s.latencyInputs
    drawsTaken := countIf s.draws s.drawsTaken
    stats := { s.writtenBack.stats with branchesTaken := countIf s.branchTaken s.stats.branchesTaken } }

/-- Every stage but Fetch has run. -/
def State.decoded (y : Option MicroOp) (s : State) : State :=
  { s.executed with
    idEx := s.idExNext y
    stats := { s.executed.stats with stallCycles := countIf (s.branchStall y) s.stats.stallCycles } }

/-! ### Each stage in place -/

theorem writebackInPlace_counted (s : State) : writebackInPlace s.counted = s.writtenBack := by
  unfold writebackInPlace State.writtenBack State.retires State.regsAfterWb
  cases hm : s.memWb with
  | none => simp [State.counted, hm, countIf]
  | some w => by_cases hop : w.op = .halt <;> simp [State.counted, hm, hop, countIf]

/-- Memory waits in place exactly where `mem_wait` is raised (R201). -/
theorem memoryInPlace_of_wait {s : State} (h : s.memWait = true) :
    memoryInPlace s.writtenBack = ({ s.writtenBack with
      memWb := none
      memCyclesLeft := s.memCyclesLeft - 1
      stats := { s.writtenBack.stats with memWaitCycles := s.stats.memWaitCycles + 1 } }, true) := by
  obtain ⟨e, he, hpos⟩ := State.memWait_eq_true.mp h
  simp [memoryInPlace, State.writtenBack, State.counted, he, hpos]

theorem memoryInPlace_of_run {s : State} (h : s.memWait = false) :
    memoryInPlace s.writtenBack = (s.performedMemory, false) := by
  cases he : s.exMem with
  | none =>
    simp [memoryInPlace, State.performedMemory, State.memWbNext, State.dmemNext, State.writtenBack, State.counted, he]
  | some e =>
    have hleft : s.memCyclesLeft = 0 := (State.memWait_of_exMem he).mp h
    simp [memoryInPlace, State.performedMemory, State.memWbNext, State.dmemNext, State.writtenBack, State.counted, he,
      h, hleft]

theorem operandInPlace_performedMemory (s : State) (r : Option Reg) :
    operandInPlace s.performedMemory r = s.operandOrZero r := by
  cases r <;> rfl

/-- Execute in place, with its answer whether the load-use hazard is found. -/
theorem executeInPlace_performedMemory {s : State} (y : Option MicroOp) (h : s.memWait = false) :
    executeInPlace y s.performedMemory = (s.executed, s.loadUse y) := by
  unfold executeInPlace
  simp only [operandInPlace_performedMemory]
  cases hx : s.idEx with
  | none =>
    simp [State.executed, State.performedMemory, State.writtenBack, State.counted, State.fetchAddr, State.redirect,
      State.exMemNext, State.memCyclesLeftNext, State.draws, State.branchTaken, State.loadUse, countIf, hx, h]
  | some i =>
    simp [State.executed, State.performedMemory, State.writtenBack, State.counted, State.fetchAddr, State.redirect,
      State.exMemNext, State.memCyclesLeftNext, State.draws, State.branchTaken, State.loadUse, hx, h]
    refine ⟨rfl, ?_⟩
    cases s.ifId <;> cases y <;> rfl

/-- Decode in place raises its fault, or has ID_EX as in the synchronous reading and answers `branch_stall`. -/
theorem decodeInPlace_executed {s : State} {y : Option MicroOp} (h : s.idRun y = true) :
    decodeInPlace y s.executed =
      match s.malformedInDecode y with
      | some f => .error f
      | none => .ok (s.decoded y, s.branchStall y) := by
  obtain ⟨hw, hl⟩ := State.idRun_eq_true.mp h
  unfold decodeInPlace State.decoded State.idExNext State.branchStall State.malformedInDecode
  cases hf : s.ifId with
  | none =>
    have hf' : s.executed.ifId = none := hf
    cases y <;> simp [hf', hw, hl, countIf] <;> rfl
  | some f =>
    have hf' : s.executed.ifId = some f := hf
    cases y with
    | none => simp [hf', h]
    | some m => simp [hf', h, hw, hl] <;> rfl

/-- Fetch in place, from the `pc` Execute has written. -/
theorem fetchInPlace_decoded {s : State} {y : Option MicroOp} (h : s.ifRun y = true) :
    fetchInPlace (s.decoded y) = { s.decoded y with ifId := s.ifIdNext y, pc := s.pcNext y } := by
  obtain ⟨hpresent, habsent⟩ := State.fetches_of_ifRun h rfl
  unfold fetchInPlace
  cases hw : s.imem.fetch s.fetchAddr with
  | some w =>
    have hw' : (s.decoded y).imem.fetch (s.decoded y).pc = some w := hw
    obtain ⟨hif, hpc⟩ := hpresent w hw
    rw [hw', hif, hpc]
    rfl
  | none =>
    have hw' : (s.decoded y).imem.fetch (s.decoded y).pc = none := hw
    obtain ⟨hif, hpc⟩ := habsent hw
    rw [hw', hif, hpc]
    rfl

/-! ### The whole cycle, as what follows each stage -/

/-- What the cycle in place does with Decode's answer. -/
def afterDecode (halting : Bool) : Except IfId (State × Bool) → Host.Outcome State Fault Refusal
  | .error f => raiseMalformed f.instr f.pc
  | .ok (s, stall) =>
    if stall then .next (classifyInPlace halting .branchStall { s with ifId := none })
    else .next (classifyInPlace halting .running (fetchInPlace s))

/-- What the cycle in place does with Execute's answer. -/
def afterExecute (y : Option MicroOp) (halting : Bool) : State × Bool → Host.Outcome State Fault Refusal
  | (s, hazard) =>
    if hazard then
      .next (classifyInPlace halting .loadStall { s with
        idEx := none
        stats := { s.stats with
          stallCycles := s.stats.stallCycles + 1
          loadStalls := s.stats.loadStalls + 1 } })
    else afterDecode halting (decodeInPlace y s)

/-- What the cycle in place does with Memory's answer. -/
def afterMemory (y : Option MicroOp) (halting : Bool) : State × Bool → Host.Outcome State Fault Refusal
  | (s, waiting) =>
    if waiting then .next (classifyInPlace halting .memWait s) else afterExecute y halting (executeInPlace y s)

theorem cycleInPlace_of_running {s : State} (y : Option MicroOp) (hr : s.runState = .running) :
    cycleInPlace y s = afterMemory y s.halting (memoryInPlace s.writtenBack) := by
  rw [← writebackInPlace_counted]
  unfold cycleInPlace
  split
  · rfl
  · simp_all
  · simp_all

/-- The controller's last word makes the next state of one that agrees with it in all else. -/
theorem classifyInPlace_eq {s t : State} {y : Option MicroOp} {c : CtrlState}
    (ht : t = { s.cycleNext y with runState := s.runState, ctrlState := s.ctrlState })
    (hc : s.halting = false → s.ctrlStateNext y = c) : classifyInPlace s.halting c t = s.cycleNext y := by
  subst ht
  cases hh : s.halting with
  | true => simp [classifyInPlace, State.cycleNext, State.ctrlStateNext, hh]
  | false => simp [classifyInPlace, State.cycleNext, hh, hc hh]

theorem afterMemory_of_wait {s : State} (y : Option MicroOp) (h : s.memWait = true) :
    afterMemory y s.halting (memoryInPlace s.writtenBack) = .next (s.cycleNext y) := by
  rw [memoryInPlace_of_wait h, afterMemory, if_pos rfl]
  congr 1
  refine classifyInPlace_eq ?_ fun hh => by simp [State.ctrlStateNext, hh, h]
  obtain ⟨hex, hid, hif, hpc, hwb, hmem, hleft, hdraws⟩ := State.wait_holds (y := y) h
  simp [State.writtenBack, State.counted, State.cycleNext, State.statsNext_of_memWait h, hex, hid, hif, hpc, hwb, hmem,
    hleft, hdraws, countIf]

theorem afterExecute_of_loadUse {s : State} {y : Option MicroOp} (h : s.loadUse y = true) :
    afterExecute y s.halting (s.executed, true) = .next (s.cycleNext y) := by
  obtain ⟨hid, hif, hw⟩ := State.loadUse_holds h
  have hheld : s.idRun y = false := by simp [State.idRun, h]
  have hb := State.branchStall_of_not_idRun hheld
  have hpc : s.pcNext y = s.fetchAddr := State.pcNext_of_not_ifRun (by simp [State.ifRun, hheld])
  rw [afterExecute, if_pos rfl]
  congr 1
  refine classifyInPlace_eq ?_ fun hh => by simp [State.ctrlStateNext, hh, hw, h]
  simp [State.executed, State.performedMemory, State.writtenBack, State.counted, State.cycleNext, State.statsNext, hid,
    hif, hpc, hb, h, hw, countIf]

theorem afterDecode_of_branchStall {s : State} {y : Option MicroOp} (h : s.branchStall y = true) :
    afterDecode s.halting (.ok (s.decoded y, true)) = .next (s.cycleNext y) := by
  obtain ⟨hw, hl⟩ := State.no_wait_of_branchStall h
  have hif : s.ifRun y = false := by simp [State.ifRun, h]
  rw [afterDecode, if_pos rfl]
  congr 1
  refine classifyInPlace_eq ?_ fun hh => by simp [State.ctrlStateNext, hh, hw, hl, h]
  simp [State.decoded, State.executed, State.performedMemory, State.writtenBack, State.counted, State.cycleNext,
    State.statsNext, State.ifIdNext, State.pcNext_of_not_ifRun hif, hif, h, hw, hl, countIf]

theorem afterDecode_of_ifRun {s : State} {y : Option MicroOp} (hrun : s.idRun y = true)
    (hb : s.branchStall y = false) : afterDecode s.halting (.ok (s.decoded y, false)) = .next (s.cycleNext y) := by
  obtain ⟨hw, hl⟩ := State.idRun_eq_true.mp hrun
  have hif : s.ifRun y = true := by simp [State.ifRun, hrun, hb]
  rw [afterDecode, if_neg Bool.false_ne_true, fetchInPlace_decoded hif]
  congr 1
  refine classifyInPlace_eq ?_ fun hh => by simp [State.ctrlStateNext, hh, hw, hl, hb]
  simp [State.decoded, State.executed, State.performedMemory, State.writtenBack, State.counted, State.cycleNext,
    State.statsNext, hb, hw, hl, countIf]

/-- Settles O56: by the stall that ends the cycle, each stage in place leaves what the synchronous reading gives. -/
theorem inPlaceOrderGivesSameCycle : Obligations.InPlaceOrderGivesSameCycle := by
  unfold Obligations.InPlaceOrderGivesSameCycle
  intro y s
  cases hr : s.runState with
  | halted => simp [cycleInPlace, cycle, hr]
  | faulted => simp [cycleInPlace, cycle, hr]
  | running =>
    rw [cycleInPlace_of_running y hr]
    cases hw : s.memWait with
    | true =>
      rw [afterMemory_of_wait y hw, cycle_of_running hr (by simp [State.malformedInDecode, State.idRun, hw])]
    | false =>
      rw [memoryInPlace_of_run hw, afterMemory, if_neg Bool.false_ne_true, executeInPlace_performedMemory y hw]
      cases hl : s.loadUse y with
      | true =>
        rw [afterExecute_of_loadUse hl, cycle_of_running hr (by simp [State.malformedInDecode, State.idRun, hl])]
      | false =>
        have hrun : s.idRun y = true := State.idRun_eq_true.mpr ⟨hw, hl⟩
        rw [afterExecute, if_neg Bool.false_ne_true, decodeInPlace_executed hrun]
        cases hbad : s.malformedInDecode y with
        | some f => simp [afterDecode, cycle, hr, hbad]
        | none =>
          rw [cycle_of_running hr hbad]
          cases hb : s.branchStall y with
          | true => exact afterDecode_of_branchStall hb
          | false => exact afterDecode_of_ifRun hrun hb

end Sys2Proof.Machine

/-! PROOFS. The path of one instruction through an otherwise empty pipeline, cycle by cycle (41_arithmetic.md,
42_load_store.md, 44_halt.md). -/

namespace Sys2Proof.Machine

/-! ### A cycle with nothing in MEM_WB -/

/-- A running machine with these registers and this data store, so many cycles counted and instructions retired. -/
structure State.Shows (s : State) (x : RegFile) (d : Memory) (cycles retired : Nat) : Prop where
  running : s.runState = .running
  x_eq : s.x = x
  dmem_eq : s.dmem = d
  cycles_eq : s.stats.totalCycles = cycles
  retired_eq : s.stats.instructionsRetired = retired

theorem State.shows_self {s : State} (hr : s.runState = .running) :
    s.Shows s.x s.dmem s.stats.totalCycles s.stats.instructionsRetired :=
  ⟨hr, rfl, rfl, rfl, rfl⟩

/-- With MEM_WB empty a cycle changes of these the data store and the count of cycles alone (R185, R212). -/
theorem State.Shows.cycle {s : State} {x : RegFile} {d : Memory} {c n : Nat} (h : s.Shows x d c n)
    (hm : s.memWb = none) (y : Option MicroOp) : (s.cycleNext y).Shows x s.dmemNext (c + 1) n where
  running := State.cycleNext_running y h.running (by simp [State.halting, hm])
  x_eq := (State.regsAfterWb_none hm).trans h.x_eq
  dmem_eq := rfl
  cycles_eq := congrArg (· + 1) h.cycles_eq
  retired_eq := by simpa [State.statsNext, State.retires, hm, countIf] using h.retired_eq

/-- The first cycle of a run of a running machine. -/
theorem runFor_succ_of_running {k : Nat} {s u : State} (hr : s.runState = .running) (h : runFor (k + 1) s = .next u) :
    runFor k (s.cycleNext s.inDecode) = .next u := by
  obtain ⟨t, hstep, hk⟩ := runFor_succ_next h
  exact step_next_of_running hr hstep ▸ hk

/-! ### The instruction in ID_EX, EX_MEM and MEM_WB -/

/-- The instruction `i` is alone in ID_EX, its operands not yet read. -/
structure State.AtExecute (s : State) (i : IdEx) : Prop where
  idEx : s.idEx = some i
  exMem : s.exMem = none
  memWb : s.memWb = none

/-- The executed instruction `e` is in EX_MEM with `k` wait cycles before it. -/
structure State.AtMemory (s : State) (e : ExMem) (k : Nat) : Prop where
  exMem : s.exMem = some e
  memWb : s.memWb = none
  left : s.memCyclesLeft = k

/-- The performed instruction `w` is in MEM_WB, and the next cycle performs no store. -/
structure State.AtWriteback (s : State) (w : MemWb) : Prop where
  memWb : s.memWb = some w
  noStore : s.dmemNext = s.dmem

/-- The value of a source operand in a register file; an absent one reads as 0 (R170). -/
def RegFile.readOrZero (x : RegFile) : Option Reg → Word
  | none => 0
  | some r => x.read r

/-- What Execute makes of the occupant of ID_EX when it reads its operands from the register file. -/
def IdEx.executeOn (i : IdEx) (x : RegFile) : ExMem := i.execute (x.readOrZero i.rs) (x.readOrZero i.rt)

/-- The wait cycles of an executed instruction whose draw is `l`. -/
def ExMem.waits (e : ExMem) (l : Latency) : Nat := if e.isMemOp then l.cycles else 0

theorem State.operandOrZero_of_alone {s : State} (he : s.exMem = none) (hm : s.memWb = none) (r : Option Reg) :
    s.operandOrZero r = s.x.readOrZero r := by
  cases r with
  | none => rfl
  | some r =>
    rw [State.operandOrZero, State.operand_of_no_bypass (by simp [he]), State.regsAfterWb_none hm]
    rfl

section Path
variable {s u : State} {x : RegFile} {d : Memory} {c n k : Nat} (h : s.Shows x d c n)
include h

/-- Decode of an instruction in an empty pipeline. -/
theorem State.Shows.decode {i : Instr} {a : Word} {m : MicroOp} (hd : s.decoding i a) (hq : s.quiet = true)
    (hm : microOp i = some m) (hrun : runFor (k + 1) s = .next u) :
    ∃ t, runFor k t = .next u ∧ t.Shows x d (c + 1) n ∧ t.AtExecute { m with instr := encode i, pc := a } ∧
      t.draw = s.draw := by
  have hwf := (wellFormed_iff_microOp i).mpr ⟨m, hm⟩
  simp only [State.quiet, Bool.and_eq_true, Option.isNone_iff_eq_none] at hq
  obtain ⟨⟨hx, he⟩, hwb⟩ := hq
  have hk := runFor_succ_of_running h.running hrun
  rw [State.inDecode_of_encode hwf hd.2.1, hm] at hk
  obtain ⟨-, hid, -⟩ := hd.completes hm
  refine ⟨_, hk, ?_, ⟨hid, ?_, ?_⟩, ?_⟩
  · have := h.cycle hwb (some m)
    rwa [State.dmemNext_of_empty he, h.dmem_eq] at this
  · simp [State.exMemNext, State.memWait, he, hx]
  · simp [State.memWbNext, he]
  · have hdraws : s.draws = false := by simp [State.draws, hx]
    simp [State.draw, hdraws, countIf]

/-- Execute of an instruction alone. -/
theorem State.Shows.execute {i : IdEx} (hi : s.AtExecute i) (hrun : runFor (k + 1) s = .next u) :
    ∃ t, runFor k t = .next u ∧ t.Shows x d (c + 1) n ∧
      t.AtMemory (i.executeOn x) ((i.executeOn x).waits s.draw) := by
  have hw : s.memWait = false := by simp [State.memWait, hi.exMem]
  refine ⟨_, runFor_succ_of_running h.running hrun, ?_, ?_, ?_, ?_⟩
  · have := h.cycle hi.memWb s.inDecode
    rwa [State.dmemNext_of_empty hi.exMem, h.dmem_eq] at this
  · rw [State.cycleNext_exMem, State.exMemNext_of_execute hw hi.idEx, State.operandOrZero_of_alone hi.exMem hi.memWb,
      State.operandOrZero_of_alone hi.exMem hi.memWb, h.x_eq]
    rfl
  · simp [State.memWbNext, hi.exMem]
  · rw [State.cycleNext_memCyclesLeft, State.memCyclesLeftNext_of_run hw, State.draws_eq_isMemOp hw hi.idEx]
    rfl

end Path

/-- The wait cycles in EX_MEM. -/
theorem State.Shows.wait {s u : State} {x : RegFile} {d : Memory} {c n l k : Nat} {e : ExMem} (h : s.Shows x d c n)
    (he : s.AtMemory e l) (hrun : runFor (l + k) s = .next u) :
    ∃ t, runFor k t = .next u ∧ t.Shows x d (c + l) n ∧ t.AtMemory e 0 := by
  induction l generalizing s c with
  | zero => exact ⟨s, by rwa [Nat.zero_add] at hrun, h, he⟩
  | succ l ih =>
    have hw : s.memWait = true := State.memWait_eq_true.mpr ⟨e, he.exMem, by rw [he.left]; omega⟩
    obtain ⟨hex, -, -, -, hwb, hmem, hleft, -⟩ := State.wait_holds (y := s.inDecode) hw
    have hs := h.cycle he.memWb s.inDecode
    rw [hmem, h.dmem_eq] at hs
    rw [Nat.add_right_comm] at hrun
    have hes : (s.cycleNext s.inDecode).AtMemory e l :=
      ⟨hex.trans he.exMem, hwb, by rw [State.cycleNext_memCyclesLeft, hleft, he.left]; rfl⟩
    obtain ⟨t, hk, ht, het⟩ := ih hs hes (runFor_succ_of_running h.running hrun)
    exact ⟨t, hk, by rwa [Nat.add_right_comm, Nat.add_assoc] at ht, het⟩

/-- The perform cycle. A store that enters EX_MEM in it is not performed in the next cycle (R176, R181). -/
theorem State.Shows.perform {s u : State} {x : RegFile} {d : Memory} {c n k : Nat} {e : ExMem} (h : s.Shows x d c n)
    (he : s.AtMemory e 0) (hrun : runFor (k + 1) s = .next u) :
    ∃ t, runFor k t = .next u ∧ t.Shows x (e.storeTo d) (c + 1) n ∧ t.AtWriteback (e.perform d) := by
  have hw : s.memWait = false := (State.memWait_of_exMem he.exMem).mpr he.left
  refine ⟨_, runFor_succ_of_running h.running hrun, ?_, ?_, ?_⟩
  · have := h.cycle he.memWb s.inDecode
    rwa [State.dmemNext_of_perform he.exMem hw, h.dmem_eq] at this
  · exact State.memWbNext_eq_some.mpr ⟨hw, e, he.exMem, by rw [h.dmem_eq]⟩
  · exact State.dmemNext_of_fresh fun e' he' hm =>
      Nat.lt_of_lt_of_le Nat.two_pos (State.two_le_memCyclesLeftNext hw he' hm)

/-- The cycle in which the instruction retires (R185 to R187). -/
theorem State.Shows.retire {s u : State} {x : RegFile} {d : Memory} {c n : Nat} {w : MemWb} (h : s.Shows x d c n)
    (hw : s.AtWriteback w) (hrun : runFor 1 s = .next u) :
    u.x = w.writeTo x ∧ u.dmem = d ∧ u.stats.totalCycles = c + 1 ∧
      u.stats.instructionsRetired = (if w.op = .halt then n else n + 1) ∧
      u.runState = if w.op = .halt then .halted else .running := by
  obtain rfl := Host.Outcome.next.inj (runFor_succ_of_running h.running hrun)
  refine ⟨?_, hw.noStore.trans h.dmem_eq, congrArg (· + 1) h.cycles_eq, ?_, ?_⟩
  · rw [State.cycleNext_x, State.regsAfterWb_some hw.memWb, h.x_eq]
  · rw [State.cycleNext_stats, State.statsNext, h.retired_eq]
    by_cases hop : w.op = .halt <;> simp [State.retires, countIf, hw.memWb, hop]
  · rw [State.cycleNext_runState, h.running]
    by_cases hop : w.op = .halt <;> simp [State.halting, hw.memWb, hop]

/-! ### The whole path -/

section Decoding
variable {i : Instr} {a : Word} {s u : State} {m : MicroOp} {e : ExMem} {k : Nat} (hd : s.decoding i a)
  (hq : s.quiet = true) (hm : microOp i = some m)
  (he : e = IdEx.executeOn { m with instr := encode i, pc := a } s.x)
include hd hq hm he

theorem State.decoding.reaches_perform (hrun : runFor (2 + e.waits s.draw + k) s = .next u) :
    ∃ t, runFor k t = .next u ∧
      t.Shows s.x s.dmem (s.stats.totalCycles + 2 + e.waits s.draw) s.stats.instructionsRetired ∧ t.AtMemory e 0 := by
  have hlen : 2 + e.waits s.draw + k = e.waits s.draw + k + 1 + 1 := by omega
  rw [hlen] at hrun
  obtain ⟨t₁, hrun₁, h₁, hx₁, hdraw⟩ := (State.shows_self hd.1).decode hd hq hm hrun
  obtain ⟨t₂, hrun₂, h₂, he₂⟩ := h₁.execute hx₁ hrun₁
  rw [← he, hdraw] at he₂
  exact h₂.wait he₂ hrun₂

theorem State.decoding.reaches_writeback (hrun : runFor (3 + e.waits s.draw + k) s = .next u) :
    ∃ t, runFor k t = .next u ∧
      t.Shows s.x (e.storeTo s.dmem) (s.stats.totalCycles + 3 + e.waits s.draw) s.stats.instructionsRetired ∧
      t.AtWriteback (e.perform s.dmem) := by
  have hlen : 3 + e.waits s.draw + k = 2 + e.waits s.draw + (k + 1) := by omega
  rw [hlen] at hrun
  obtain ⟨t₃, hrun₃, h₃, he₃⟩ := hd.reaches_perform hq hm he hrun
  obtain ⟨t₄, hrun₄, h₄, hw₄⟩ := h₃.perform he₃ hrun₃
  exact ⟨t₄, hrun₄, by rwa [Nat.add_right_comm] at h₄, hw₄⟩

/-- An instruction that is no `halt` has retired after its path, with the effect of its Writeback. -/
theorem State.decoding.retires (hop : e.op ≠ .halt) (hrun : runFor (4 + e.waits s.draw) s = .next u) :
    u.stats.instructionsRetired = s.stats.instructionsRetired + 1 ∧ u.x = (e.perform s.dmem).writeTo s.x := by
  have hlen : 4 + e.waits s.draw = 3 + e.waits s.draw + 1 := by omega
  rw [hlen] at hrun
  obtain ⟨t, hrun', h, hw⟩ := hd.reaches_writeback hq hm he hrun
  obtain ⟨hx, -, -, hret, -⟩ := h.retire hw hrun'
  exact ⟨hret.trans (if_neg hop), hx⟩

end Decoding

/-- What Writeback of a performed instruction leaves in a register: its result in its destination (R185, R22). -/
theorem ExMem.read_perform_writeTo {e : ExMem} {d : Memory} {x : RegFile} {r q : Reg} {v : Word}
    (hw : e.ctrl.regWrite = true) (hd : e.dest = some q) (hv : (e.perform d).value = v) :
    ((e.perform d).writeTo x).read r = if r = q ∧ q ≠ 0 then v else x.read r := by
  rw [MemWb.read_writeTo, hv]
  have hw' : (e.perform d).ctrl.regWrite = true := hw
  have hd' : (e.perform d).dest = some q := hd
  by_cases hr : r = q
  · subst hr
    simp [hw', hd']
  · simp [hw', hd', hr, Ne.symm hr]

/-- Settles O57: each of the four forms waits in no stage, and its ALU result is written. -/
theorem arithmeticPath : Obligations.ArithmeticPath := by
  unfold Obligations.ArithmeticPath
  refine ⟨?_, ?_, ?_, ?_⟩
  · intro rd rs rt a s u hd hq hrun
    obtain ⟨hret, hx⟩ := hd.retires hq (formR_of_regs .add rd rs rt) rfl nofun hrun
    exact ⟨hret, fun r => by rw [hx, ExMem.read_perform_writeTo rfl rfl rfl]; rfl⟩
  · intro rd rs rt a s u hd hq hrun
    obtain ⟨hret, hx⟩ := hd.retires hq (formR_of_regs .sub rd rs rt) rfl nofun hrun
    exact ⟨hret, fun r => by rw [hx, ExMem.read_perform_writeTo rfl rfl rfl]; rfl⟩
  · intro rt rs imm a s u himm hd hq hrun
    obtain ⟨hret, hx⟩ := hd.retires hq (formI_of_regs .addi rs rt himm) rfl nofun hrun
    exact ⟨hret, fun r => by rw [hx, ExMem.read_perform_writeTo rfl rfl rfl]; rfl⟩
  · intro rt rs imm a s u himm hd hq hrun
    obtain ⟨hret, hx⟩ := hd.retires hq (formI_of_regs .subi rs rt himm) rfl nofun hrun
    exact ⟨hret, fun r => by rw [hx, ExMem.read_perform_writeTo rfl rfl rfl]; rfl⟩

/-- Settles O58: a load waits as long as its draw, and what it loads is written. -/
theorem loadPath : Obligations.LoadPath := by
  unfold Obligations.LoadPath
  intro rt rs imm a s u himm hd hq hrun
  obtain ⟨hret, hx⟩ := hd.retires hq (formI_of_regs .lw rs rt himm) rfl nofun hrun
  exact ⟨hret, fun r => by rw [hx, ExMem.read_perform_writeTo rfl rfl rfl]; rfl⟩

/-- Settles O59: a store waits as long as its draw, and is performed in the cycle after. -/
theorem storePath : Obligations.StorePath := by
  unfold Obligations.StorePath
  intro rt rs imm a s u himm hd hq
  have hm : microOp (.sw rt imm rs) = some _ := formI_of_regs .sw rs rt himm
  constructor
  · intro hrun
    obtain ⟨t, hrun', h, -⟩ := hd.reaches_perform hq hm rfl (k := 0) hrun
    exact Host.Outcome.next.inj hrun' ▸ h.dmem_eq
  · intro hrun b
    obtain ⟨t, hrun', h, -⟩ := hd.reaches_writeback hq hm rfl (k := 0) hrun
    rw [← Host.Outcome.next.inj hrun', h.dmem_eq, ExMem.read_storeTo]
    exact if_congr (and_iff_right rfl) rfl rfl

/-- Settles O60: `halt` waits in no stage, and its retirement ends the run without effect. -/
theorem haltPath : Obligations.HaltPath := by
  unfold Obligations.HaltPath
  intro a s u hd hq hrun
  have hm : microOp .halt = some _ := rfl
  obtain ⟨t, hrun', h, hw⟩ := hd.reaches_writeback hq hm rfl (k := 1) hrun
  obtain ⟨hx, hmem, hcycles, hret, hstate⟩ := h.retire hw hrun'
  exact ⟨hstate, hx, hmem, hcycles, hret⟩

end Sys2Proof.Machine
